-- ==== Sys2Proof/Word.lean ====
section
/-! DEFINITION. The machine's two data widths: the 16-bit word (`XLEN`, `ALEN`, one memory cell, spec/00_scope.md R6)
and the 8-bit byte (a console character, a byte of the program image; R16, R222). -/

namespace Sys2Proof

/-- A register, a memory cell, an address or an instruction: "an opaque 16-bit value" (R6, R11). -/
abbrev Word := BitVec 16

/-- A console character or one byte of the program image (R30, R31, R222). -/
abbrev Byte := BitVec 8

end Sys2Proof
end

