-- ==== Sys2Proof/Syntax.lean ====
section
/-! DEFINITION. The instructions, one constructor per row of spec/opcode_table.json (25 rows), in the table's order.
Bits the hardware does not look at (spec/30_encoding.md R93) are no part of an instruction. -/

namespace Sys2Proof

/-- The eight general registers (spec/10_state.md R20). -/
inductive Reg where
  | r0 | r1 | r2 | r3 | r4 | r5 | r6 | r7
  deriving DecidableEq, Repr

/-- One decoded instruction (R81, R82, R90, R91). Immediates and offsets are the raw field, not yet extended (R83). -/
inductive Instr where
  /-- BR, R150: the three condition bits and PCoffset9. -/
  | br (n z p : Bool) (off : BitVec 9)
  /-- ADD, register form, R120. -/
  | addReg (dr sr1 sr2 : Reg)
  /-- ADD, immediate form, R121. -/
  | addImm (dr sr1 : Reg) (imm : BitVec 5)
  /-- LD, R130. -/
  | ld (dr : Reg) (off : BitVec 9)
  /-- ST, R134. -/
  | st (sr : Reg) (off : BitVec 9)
  /-- JSR, R153. -/
  | jsr (off : BitVec 11)
  /-- JSRR, R154. -/
  | jsrr (base : Reg)
  /-- AND, register form, R122. -/
  | andReg (dr sr1 sr2 : Reg)
  /-- AND, immediate form, R123. -/
  | andImm (dr sr1 : Reg) (imm : BitVec 5)
  /-- LDR, R132. -/
  | ldr (dr base : Reg) (off : BitVec 6)
  /-- STR, R136. -/
  | str (sr base : Reg) (off : BitVec 6)
  /-- RTI, R180. -/
  | rti
  /-- NOT, R124. -/
  | not (dr sr : Reg)
  /-- LDI, R131. -/
  | ldi (dr : Reg) (off : BitVec 9)
  /-- STI, R135. -/
  | sti (sr : Reg) (off : BitVec 9)
  /-- JMP, R152 (RET is JMP R7). -/
  | jmp (base : Reg)
  /-- The reserved opcode 1101, R181. -/
  | res
  /-- LEA, R133. -/
  | lea (dr : Reg) (off : BitVec 9)
  /-- TRAP x20, GETC, R161. -/
  | trapGetc
  /-- TRAP x21, OUT, R162. -/
  | trapOut
  /-- TRAP x22, PUTS, R163. -/
  | trapPuts
  /-- TRAP x23, IN, R164. -/
  | trapIn
  /-- TRAP x24, PUTSP, R165. -/
  | trapPutsp
  /-- TRAP x25, HALT, R166. -/
  | trapHalt
  /-- TRAP with any other vector, R167. -/
  | trap (vector : BitVec 8)
  deriving DecidableEq, Repr

end Sys2Proof
end

