-- ==== Sys2Proof/WellFormed.lean ====
section
/-! DEFINITION. Which terms of Instr stand for an instruction of the machine. Every field has the exact width of its
encoding, so one check is left: the generic TRAP row stands for the vectors without a service (spec/30_encoding.md R91, R95). -/

namespace Sys2Proof

/-- The six vectors that have a service, 0x20 to 0x25 (R91). -/
def isServiceVector (v : BitVec 8) : Bool := 0x20 ≤ v.toNat && v.toNat ≤ 0x25

/-- The generic TRAP row is used only for vectors outside 0x20 to 0x25; every other term is well formed. -/
def Instr.wellFormed : Instr → Bool
  | .trap v => !isServiceVector v
  | .br .. | .addReg .. | .addImm .. | .ld .. | .st .. | .jsr .. | .jsrr .. | .andReg .. | .andImm ..
  | .ldr .. | .str .. | .rti | .not .. | .ldi .. | .sti .. | .jmp .. | .res | .lea ..
  | .trapGetc | .trapOut | .trapPuts | .trapIn | .trapPutsp | .trapHalt => true

end Sys2Proof
end

