-- ==== Sys2Proof/Decode.lean ====
section
/-! DEFINITION. The decoder, the encoder and the opcode table (spec/30_encoding.md, spec/opcode_table.json).
The decoder is total and refuses no word: "Every one of the 65536 words decodes to exactly one form" (R95). -/

namespace Sys2Proof

/-- `w[lo+len-1 : lo]`, right-justified (spec/00_scope.md R8). -/
def field (w : Word) (lo len : Nat) : BitVec len := w.extractLsb' lo len

/-- A word with the field `b` at bits `lo+n-1 : lo` and 0 elsewhere: what `field` reads back. -/
def place {n : Nat} (b : BitVec n) (lo : Nat) : Word := b.setWidth 16 <<< lo

/-- `w[i]` (R8). -/
def bitAt (w : Word) (i : Nat) : Bool := w.getLsbD i

/-- The register a 3-bit field names: 0b000 is R0, 0b111 is R7 (spec/10_state.md R20). -/
def Reg.ofField (b : BitVec 3) : Reg :=
  match b.toNat with
  | 0 => .r0
  | 1 => .r1
  | 2 => .r2
  | 3 => .r3
  | 4 => .r4
  | 5 => .r5
  | 6 => .r6
  | _ => .r7

/-- The 3-bit number of a register (R20). -/
def Reg.toField : Reg → BitVec 3
  | .r0 => 0
  | .r1 => 1
  | .r2 => 2
  | .r3 => 3
  | .r4 => 4
  | .r5 => 5
  | .r6 => 6
  | .r7 => 7

/-- The register named by `w[lo+2 : lo]`. -/
def regAt (w : Word) (lo : Nat) : Reg := Reg.ofField (field w lo 3)

/-- Opcode 1111: the vector selects the row (R91). -/
def decodeTrap (v : BitVec 8) : Instr :=
  match v.toNat with
  | 0x20 => .trapGetc
  | 0x21 => .trapOut
  | 0x22 => .trapPuts
  | 0x23 => .trapIn
  | 0x24 => .trapPutsp
  | 0x25 => .trapHalt
  | _ => .trap v

/-- The instruction a word stands for: the opcode `w[15:12]` picks the row, and for 0001, 0100 and 0101 one further
bit picks the form (R82, R90, R112, R113). The last arm is opcode 1111. -/
def decode (w : Word) : Instr :=
  match (field w 12 4).toNat with
  | 0 => .br (bitAt w 11) (bitAt w 10) (bitAt w 9) (field w 0 9)
  | 1 => if bitAt w 5 then .addImm (regAt w 9) (regAt w 6) (field w 0 5)
         else .addReg (regAt w 9) (regAt w 6) (regAt w 0)
  | 2 => .ld (regAt w 9) (field w 0 9)
  | 3 => .st (regAt w 9) (field w 0 9)
  | 4 => if bitAt w 11 then .jsr (field w 0 11) else .jsrr (regAt w 6)
  | 5 => if bitAt w 5 then .andImm (regAt w 9) (regAt w 6) (field w 0 5)
         else .andReg (regAt w 9) (regAt w 6) (regAt w 0)
  | 6 => .ldr (regAt w 9) (regAt w 6) (field w 0 6)
  | 7 => .str (regAt w 9) (regAt w 6) (field w 0 6)
  | 8 => .rti
  | 9 => .not (regAt w 9) (regAt w 6)
  | 10 => .ldi (regAt w 9) (field w 0 9)
  | 11 => .sti (regAt w 9) (field w 0 9)
  | 12 => .jmp (regAt w 6)
  | 13 => .res
  | 14 => .lea (regAt w 9) (field w 0 9)
  | _ => decodeTrap (field w 0 8)

/-- The canonical word of an instruction (R82): ignored bits are 0, but for the six low bits of NOT, which are 1 (R94). -/
def encode : Instr → Word
  | .br n z p off => place (BitVec.ofBool n) 11 ||| place (BitVec.ofBool z) 10 ||| place (BitVec.ofBool p) 9 ||| place off 0
  | .addReg dr sr1 sr2 => 0x1000 ||| place dr.toField 9 ||| place sr1.toField 6 ||| place sr2.toField 0
  | .addImm dr sr1 imm => 0x1020 ||| place dr.toField 9 ||| place sr1.toField 6 ||| place imm 0
  | .ld dr off => 0x2000 ||| place dr.toField 9 ||| place off 0
  | .st sr off => 0x3000 ||| place sr.toField 9 ||| place off 0
  | .jsr off => 0x4800 ||| place off 0
  | .jsrr base => 0x4000 ||| place base.toField 6
  | .andReg dr sr1 sr2 => 0x5000 ||| place dr.toField 9 ||| place sr1.toField 6 ||| place sr2.toField 0
  | .andImm dr sr1 imm => 0x5020 ||| place dr.toField 9 ||| place sr1.toField 6 ||| place imm 0
  | .ldr dr base off => 0x6000 ||| place dr.toField 9 ||| place base.toField 6 ||| place off 0
  | .str sr base off => 0x7000 ||| place sr.toField 9 ||| place base.toField 6 ||| place off 0
  | .rti => 0x8000
  | .not dr sr => 0x903F ||| place dr.toField 9 ||| place sr.toField 6
  | .ldi dr off => 0xA000 ||| place dr.toField 9 ||| place off 0
  | .sti sr off => 0xB000 ||| place sr.toField 9 ||| place off 0
  | .jmp base => 0xC000 ||| place base.toField 6
  | .res => 0xD000
  | .lea dr off => 0xE000 ||| place dr.toField 9 ||| place off 0
  | .trapGetc => 0xF020
  | .trapOut => 0xF021
  | .trapPuts => 0xF022
  | .trapIn => 0xF023
  | .trapPutsp => 0xF024
  | .trapHalt => 0xF025
  | .trap v => 0xF000 ||| place v 0

/-- One row of spec/opcode_table.json: the row stands for the words `w` with `w & mask = pattern`. -/
structure TableRow where
  mnemonic : String
  pattern  : Word
  mask     : Word
  deriving DecidableEq, Repr

/-- spec/opcode_table.json, its rows' "match" and "mask" in the table's order; the first row that matches is the word's row (R95). -/
def opcodeTable : List TableRow :=
  [ ⟨"BR", 0x0000, 0xF000⟩, ⟨"ADD", 0x1000, 0xF020⟩, ⟨"ADD", 0x1020, 0xF020⟩, ⟨"LD", 0x2000, 0xF000⟩,
    ⟨"ST", 0x3000, 0xF000⟩, ⟨"JSR", 0x4800, 0xF800⟩, ⟨"JSRR", 0x4000, 0xF800⟩, ⟨"AND", 0x5000, 0xF020⟩,
    ⟨"AND", 0x5020, 0xF020⟩, ⟨"LDR", 0x6000, 0xF000⟩, ⟨"STR", 0x7000, 0xF000⟩, ⟨"RTI", 0x8000, 0xF000⟩,
    ⟨"NOT", 0x9000, 0xF000⟩ ] ++
  [ ⟨"LDI", 0xA000, 0xF000⟩, ⟨"STI", 0xB000, 0xF000⟩, ⟨"JMP", 0xC000, 0xF000⟩, ⟨"RES", 0xD000, 0xF000⟩,
    ⟨"LEA", 0xE000, 0xF000⟩, ⟨"TRAP.GETC", 0xF020, 0xF0FF⟩, ⟨"TRAP.OUT", 0xF021, 0xF0FF⟩,
    ⟨"TRAP.PUTS", 0xF022, 0xF0FF⟩, ⟨"TRAP.IN", 0xF023, 0xF0FF⟩, ⟨"TRAP.PUTSP", 0xF024, 0xF0FF⟩,
    ⟨"TRAP.HALT", 0xF025, 0xF0FF⟩, ⟨"TRAP", 0xF000, 0xF000⟩ ]

/-- The place in opcodeTable of an instruction's row. -/
def Instr.tableIndex : Instr → Nat
  | .br .. => 0
  | .addReg .. => 1
  | .addImm .. => 2
  | .ld .. => 3
  | .st .. => 4
  | .jsr .. => 5
  | .jsrr .. => 6
  | .andReg .. => 7
  | .andImm .. => 8
  | .ldr .. => 9
  | .str .. => 10
  | .rti => 11
  | .not .. => 12
  | .ldi .. => 13
  | .sti .. => 14
  | .jmp .. => 15
  | .res => 16
  | .lea .. => 17
  | .trapGetc => 18
  | .trapOut => 19
  | .trapPuts => 20
  | .trapIn => 21
  | .trapPutsp => 22
  | .trapHalt => 23
  | .trap .. => 24

/-- The bits of a word that its instruction looks at, `-` in R82 and the list of R93 being the others. -/
def examinedBits : Instr → Word
  | .addReg .. | .andReg .. => 0b1111111111100111
  | .not .. => 0b1111111111000000
  | .jmp .. => 0b1111000111000000
  | .jsrr .. => 0b1111100111000000
  | .rti | .res => 0b1111000000000000
  | .trapGetc | .trapOut | .trapPuts | .trapIn | .trapPutsp | .trapHalt | .trap .. => 0b1111000011111111
  | .br .. | .addImm .. | .ld .. | .st .. | .jsr .. | .andImm .. | .ldr .. | .str .. | .ldi .. | .sti .. | .lea .. =>
    0b1111111111111111

/-- The word of an opcode-table row given as `nbits` bits `w`, the bits above them 0. One word is the whole instruction (R80). -/
def tableWord (nbits w : Nat) : Word := BitVec.ofNat 16 (w % 2 ^ nbits)

/-- What the decoder reads from an instruction whose bits are `w`; it refuses none (R95). -/
def decodeTableWord (nbits w : Nat) : Option Instr := some (decode (tableWord nbits w))

end Sys2Proof
end

