-- ==== Sys2Proof/Config.lean ====
section
/-! DEFINITION. What the spec leaves to the launch of the machine: the parameters of spec/00_scope.md R7.
The spec makes them "an argument of the model". They are plain data, and the machine state carries them
(State.params), so a statement about every state is a statement about every value of them (log entry 22). -/

namespace Sys2Proof

/-- The open parameters of R7 that the running core uses (`MEM0` and `IMAGE` stand in `Launch`, Machine/State.lean). -/
structure Params where
  /-- `KBSR_ADDR`: the one address whose read polls the keyboard (R7, R57, D1). -/
  kbsrAddr   : Word
  /-- `KBDR_ADDR`: the address of the keyboard data cell; a launch gives two different addresses (R7, R57, D1). -/
  kbdrAddr   : Word
  /-- `HALT_NOTICE`: what TRAP HALT emits (R7, R166, D8). -/
  haltNotice : List Byte
  /-- `DIAG_RTI`: the diagnostic of opcode 1000 (R7, R191, D8). -/
  diagRti    : List Byte
  /-- `DIAG_RES`: the diagnostic of opcode 1101 (R7, R191, D8). -/
  diagRes    : List Byte
  /-- `IN_PROMPT`: what TRAP IN emits before it reads (R7, R164, D8). -/
  inPrompt   : List Byte
  deriving DecidableEq, Repr

/-- The values State.reset carries.
The two addresses are R7's defaults 0xFE00 and 0xFE02 (PRESUMED, log entry 3: unsafe for a claim about State.reset only).
The four texts are empty (DESIGN CHOICE, log entry 5: unsafe for a claim about State.reset only). -/
def Config.defaultParams : Params where
  kbsrAddr   := 0xFE00
  kbdrAddr   := 0xFE02
  haltNotice := []
  diagRti    := []
  diagRes    := []
  inPrompt   := []

/-- What a memory cell that the list of cells does not name reads as (DESIGN CHOICE, log entry 2).
Any content of memory, any `MEM0` (R7, R35, D4), is still a value of State.mem: it lists its non-zero cells. -/
def Config.unlistedWord : Word := 0x0000

/-- What the environment types at each turn of an endless schedule: "which bytes arrive and when" is "free input"
(R32, D10; log entry 28). It has no body, so that what is proved of a run with an endless schedule holds whatever is typed.
The schedule's number lets two runs have different schedules; the turn counts on from step to step. -/
opaque Config.typing (schedule turn : Nat) : List Byte

end Sys2Proof
end

