-- ==== Sys2Proof/Machine/State.lean ====
section
/-! DEFINITION. The machine's state (spec/10_state.md), why a step can stop, the launch arguments and the reset state.
State is plain data and holds every piece of state the spec names; INVENTORY.md lists them with their rules. -/

namespace Sys2Proof.Machine

/-- The eight general registers, 16 bits each, none hardwired (R20). -/
structure Regs where
  r0 : Word
  r1 : Word
  r2 : Word
  r3 : Word
  r4 : Word
  r5 : Word
  r6 : Word
  r7 : Word
  deriving DecidableEq, Repr

/-- Memory: the cells that differ from Config.unlistedWord, as (word address, word) pairs with strictly rising addresses.
The 16-bit word is the only addressable unit: "there are no byte addresses" (R26, R50; log entry 1). -/
abbrev Memory := List (Nat × Word)

/-- The run state (R24). `idle` is "not RUNNING", from reset to a successful boot (R35, D18; log entry 16). -/
inductive RunState where
  | idle | running | halted
  deriving DecidableEq, Repr

/-- The halt-cause register: all four values of its two bits have a name (R25; log entry 12). -/
inductive HaltCause where
  | none | trapHalt | unimplRti | unimplRes
  deriving DecidableEq, Repr

/-- The two services that wait for a character (R169). -/
inductive InputService where
  | getc | input
  deriving DecidableEq, Repr

/-- What the environment has still to type, turn by turn (R32: "every arrival schedule is a possible run"; log entries 14, 28). -/
inductive Arrivals where
  /-- A schedule that ends: one entry a turn, and then nothing more. -/
  | listed (entries : List (List Byte))
  /-- A schedule without an end: at turn `turn` and every later one, what Config.typing says. -/
  | endless (schedule turn : Nat)
  deriving DecidableEq, Repr

/-- What stops the machine. No access, no instruction and no word faults (R50, R95, R190), so this type has one
constructor only, for a service that would loop for ever inside one step. -/
inductive Fault where
  /-- Raised by TRAP PUTS and TRAP PUTSP when their string has no end: "the core hangs inside this cycle" (R116, R163, U13).
  Safe: the machine stops where the hardware hangs. It is never raised, since a string always ends at KBSR_ADDR at the
  latest, once the keyboard queue is empty (log entry 19; Obligations.EveryStepCompletes states it). -/
  | stringNeverEnds
  deriving DecidableEq, Repr

/-- Why the model refuses an instruction. -/
inductive Refusal where
  /-- The instruction has no meaning yet. Raised by a refused arm of exec only, and no arm is one. Safe. -/
  | notModelled (mnemonic : String)
  deriving DecidableEq, Repr

/-- The machine's state. -/
structure State where
  /-- R0 to R7 (R20, R21). -/
  regs      : Regs
  /-- The program counter, a word address (R22). -/
  pc        : Word
  /-- The condition codes, 3 bits (R23). -/
  cc        : BitVec 3
  /-- The run state (R24). -/
  run       : RunState
  /-- The halt cause, an output (R25). -/
  haltCause : HaltCause
  /-- The memory array; the KBSR and KBDR registers are two of its cells (R26, R27, R28). -/
  mem       : Memory
  /-- `KBQ`: the characters typed and not yet consumed, oldest first (R30). -/
  kbq       : List Byte
  /-- `OUT_LOG`: the bytes written to the console, oldest first (R31). -/
  outLog    : List Byte
  /-- The service whose wait for a character is not over, if any (R169 rendering (a); log entry 15). -/
  waiting   : Option InputService
  /-- What the environment will type: its next turn comes before the next step of a running core (R32; log entries 14, 28). -/
  arrivals  : Arrivals
  /-- `IMAGE`: the program image the boot agent will place; `none` when it cannot be obtained (R222, R226; log entry 16). -/
  image     : Option (List Byte)
  /-- The open parameters of R7, fixed for the run (log entry 22). -/
  params    : Params
  deriving DecidableEq, Repr

/-- The launch arguments: all that the spec leaves open at reset (R7, R30, R35, R222). -/
structure Launch where
  params   : Params
  /-- `MEM0`: what memory holds before the image is placed (R7, D4). -/
  mem0     : Memory
  kbq      : List Byte
  arrivals : Arrivals
  image    : Option (List Byte)
  deriving DecidableEq, Repr

/-- Reset with given launch arguments: the table of R35, column "Value after reset" (R220). -/
def State.launch (l : Launch) : State where
  regs      := ⟨0, 0, 0, 0, 0, 0, 0, 0⟩
  pc        := 0
  cc        := 0
  run       := .idle
  haltCause := .none
  mem       := l.mem0
  kbq       := l.kbq
  outLog    := []
  waiting   := none
  arrivals  := l.arrivals
  image     := l.image
  params    := l.params

/-- The launch that State.reset stands for: no memory cell listed (log entry 2), no keys typed (R30; log entry 14), no image (log
entry 16), the default parameters (log entries 3 and 5). -/
def Launch.default : Launch where
  params   := Config.defaultParams
  mem0     := []
  kbq      := []
  arrivals := .listed []
  image    := none

/-- The machine right after reset (R35, R220). -/
def State.reset : State := State.launch Launch.default

end Sys2Proof.Machine
end

