-- ==== Sys2Proof/Machine/Operands.lean ====
section
/-! DEFINITION. Extensions, byte selection and operand forms (spec/00_scope.md R8 to R11, spec/30_encoding.md R83, R84).
Registers are read and written here and nowhere else. -/

namespace Sys2Proof.Machine

/-- `sext_N`: the 16-bit value with the same two's-complement meaning (R9). -/
def sext {n : Nat} (v : BitVec n) : Word := v.signExtend 16

/-- `zext_16` of a byte (R10, D6; log entry 9). -/
def zext (b : Byte) : Word := b.setWidth 16

/-- `w[7:0]`. -/
def lowByte (w : Word) : Byte := w.extractLsb' 0 8

/-- `w[15:8]`. -/
def highByte (w : Word) : Byte := w.extractLsb' 8 8

/-- A word from two bytes, the high byte first (R54, R222). -/
def wordOfBytes (hi lo : Byte) : Word := hi ++ lo

/-- `x[i]` (R12, R20). -/
def Regs.get (x : Regs) : Reg → Word
  | .r0 => x.r0
  | .r1 => x.r1
  | .r2 => x.r2
  | .r3 => x.r3
  | .r4 => x.r4
  | .r5 => x.r5
  | .r6 => x.r6
  | .r7 => x.r7

/-- `x[i] <- v` (R12, R20): no register is hardwired and none is an alias of another. -/
def Regs.set (x : Regs) (i : Reg) (v : Word) : Regs :=
  match i with
  | .r0 => { x with r0 := v }
  | .r1 => { x with r1 := v }
  | .r2 => { x with r2 := v }
  | .r3 => { x with r3 := v }
  | .r4 => { x with r4 := v }
  | .r5 => { x with r5 := v }
  | .r6 => { x with r6 := v }
  | .r7 => { x with r7 := v }

/-- Reads a general register. -/
def State.reg (s : State) (i : Reg) : Word := s.regs.get i

/-- Writes a general register. -/
def State.setReg (s : State) (i : Reg) (v : Word) : State := { s with regs := s.regs.set i v }

/-- `PC + sext_9(PCoffset9)`: BR's target and the address of LD, LDI, LEA, ST and STI (R83, R84). The PC is the incremented one. -/
def State.pcRel9 (s : State) (off : BitVec 9) : Word := s.pc + sext off

/-- `PC + sext_11(PCoffset11)`: JSR's target (R83, R84). -/
def State.pcRel11 (s : State) (off : BitVec 11) : Word := s.pc + sext off

/-- `x[BaseR] + sext_6(offset6)`: the address of LDR and STR (R83, R84). -/
def State.baseRel (s : State) (base : Reg) (off : BitVec 6) : Word := s.reg base + sext off

end Sys2Proof.Machine
end

