-- ==== Sys2Proof/Machine/Flags.lean ====
section
/-! DEFINITION. The condition codes (spec/10_state.md R23, spec/40_fetch_decode.md R114, spec/43_control.md R150). -/

namespace Sys2Proof.Machine

/-- NEGATIVE (R23, D2; log entry 6). -/
def ccN : BitVec 3 := 0b100

/-- ZERO (R23, D2; log entry 6). -/
def ccZ : BitVec 3 := 0b010

/-- POSITIVE (R23, D2; log entry 6). -/
def ccP : BitVec 3 := 0b001

/-- The value of CC from reset to the first instruction that writes it: none of N, Z, P (R23, R35, D3; log entry 7). -/
def ccUnset : BitVec 3 := 0b000

/-- What R114's rule makes of a 16-bit value: Z for 0, N when bit 15 is 1, else P. -/
def ccOf (v : Word) : BitVec 3 := if v = 0 then ccZ else if v.msb then ccN else ccP

/-- `setcc(v)` (R14, R114). -/
def State.setcc (s : State) (v : Word) : State := { s with cc := ccOf v }

/-- What every value-producing instruction does with its result: the register write, then `setcc` of the value written (R114). -/
def State.writeResult (s : State) (dr : Reg) (v : Word) : State := (s.setReg dr v).setcc v

/-- Whether BR's flag bits match a value of CC (R150). -/
def branchTaken (n z p : Bool) (cc : BitVec 3) : Bool := (n && cc = ccN) || (z && cc = ccZ) || (p && cc = ccP)

end Sys2Proof.Machine
end

