-- ==== Sys2Proof/Machine/Ops.lean ====
section
/-! DEFINITION. The shared operations: the memory array, the two memory primitives (spec/20_memory.md R51, R52), the
console primitives (spec/00_scope.md R16), the environment's step (spec/10_state.md R32), the fetch (R111), the link
write, and the entry of the one exception (spec/60_exceptions.md R191), from which there is no return (R195). -/

namespace Sys2Proof.Machine

/-- The canonical form of a memory: addresses strictly rising and inside the 65536 words (R50), no cell listed that holds
what an unlisted one reads as. -/
abbrev Memory.wf (m : Memory) : Prop :=
  m.Pairwise (fun c d => c.1 < d.1) ∧ ∀ c ∈ m, c.1 < 65536 ∧ c.2 ≠ Config.unlistedWord

/-- `MEM[a]`: the stored cell, with no side effect (R12, R26). -/
def Memory.read : Memory → Word → Word
  | [], _ => Config.unlistedWord
  | (b, w) :: m, a => if b = a.toNat then w else Memory.read m a

/-- Puts a cell before the first one with a larger address. -/
def Memory.insertCell (a : Nat) (v : Word) : Memory → Memory
  | [] => [(a, v)]
  | (b, w) :: m => if a < b then (a, v) :: (b, w) :: m else (b, w) :: Memory.insertCell a v m

/-- `MEM[a] <- v` (R12, R26). Writing what an unlisted cell reads as takes the cell off the list. -/
def Memory.write (m : Memory) (a v : Word) : Memory :=
  let others := m.filter (fun c => c.1 != a.toNat)
  if v = Config.unlistedWord then others else Memory.insertCell a.toNat v others

/-- The poll that a read of `KBSR_ADDR` makes before it returns (R27, R28, R51): a pending character is consumed and
latched in KBDR, else KBSR is cleared and KBDR stays. -/
def State.poll (s : State) : State :=
  match s.kbq with
  | c :: rest =>
    { s with kbq := rest, mem := (s.mem.write s.params.kbsrAddr 0x8000).write s.params.kbdrAddr (zext c) }
  | [] => { s with mem := s.mem.write s.params.kbsrAddr 0x0000 }

/-- `MemRead(a, 1)`, the only read path of the core: the word read, and the state after the read (R13, R51). -/
def State.memRead (s : State) (a : Word) : Word × State :=
  let t := if a = s.params.kbsrAddr then s.poll else s
  (t.mem.read a, t)

/-- `MemWrite(a, 1, v)`: a plain store, at every address (R13, R52). -/
def State.memWrite (s : State) (a v : Word) : State := { s with mem := s.mem.write a v }

/-- `ConsolePutString(bs)` (R16, R31). -/
def State.putString (s : State) (bs : List Byte) : State := { s with outLog := s.outLog ++ bs }

/-- `ConsolePut(b)` (R16, R31). -/
def State.put (s : State) (b : Byte) : State := s.putString [b]

/-- The environment types some characters: they go to the tail of `KBQ`, and nothing else changes (R32). -/
def State.typed (s : State) (bs : List Byte) : State := { s with kbq := s.kbq ++ bs }

/-- What a schedule has the environment type at its next turn: any finite number of bytes, none among them (R32). -/
def Arrivals.now : Arrivals → List Byte
  | .listed (bs :: _) => bs
  | .listed [] => []
  | .endless schedule turn => Config.typing schedule turn

/-- The schedule after its next turn (R32). -/
def Arrivals.later : Arrivals → Arrivals
  | .listed entries => .listed entries.tail
  | .endless schedule turn => .endless schedule (turn + 1)

/-- The environment's turn before a step of the running core: it types what its schedule says (R32; log entries 14, 28). -/
def State.arrive (s : State) : State := { s.typed s.arrivals.now with arrivals := s.arrivals.later }

/-- Fetch: the word at PC through the ordinary read, then `PC <- PC + 1` (R110, R111). -/
def State.fetch (s : State) : Word × State :=
  let r := s.memRead s.pc
  (r.1, { r.2 with pc := r.2.pc + 1 })

/-- `x[7] <- PC`: the link write of JSR, JSRR and TRAP (R21, R153, R154, R160). -/
def State.link (s : State) : State := s.setReg .r7 s.pc

/-- RUN becomes HALTED and HALT_CAUSE says why (R24, R25). -/
def State.halt (s : State) (cause : HaltCause) : State := { s with run := .halted, haltCause := cause }

/-- The two causes of the one exception (R190). -/
inductive Unimplemented where
  | rti | reserved
  deriving DecidableEq, Repr

/-- `raise UnimplementedOpcode`: the diagnostic, HALT_CAUSE, RUN (R15, R191). Nothing is saved, no mode changes and
control goes nowhere. -/
def State.raiseUnimplemented (s : State) : Unimplemented → State
  | .rti => (s.putString s.params.diagRti).halt .unimplRti
  | .reserved => (s.putString s.params.diagRes).halt .unimplRes

/-- The 2-bit code of HALT_CAUSE (R25). -/
def HaltCause.code : HaltCause → BitVec 2
  | .none => 0
  | .trapHalt => 1
  | .unimplRti => 2
  | .unimplRes => 3

/-- The output `halt_cause` of the block (R33). -/
def State.haltCauseOut (s : State) : BitVec 2 := s.haltCause.code

/-- The output `halted` of the block (R33): false before boot (D18). -/
def State.haltedOut (s : State) : Bool := s.run = .halted

/-- The input `kb_pending` of the block, `ConsolePending()` (R16, R33). -/
def State.kbPending (s : State) : Bool := !s.kbq.isEmpty

/-- The input `kb_data` of the block: the head byte of KBQ, there when `kb_pending` is (R33). -/
def State.kbData (s : State) : Option Byte := s.kbq.head?

end Sys2Proof.Machine
end

