-- ==== Sys2Proof/Machine/Boot.lean ====
section
/-! DEFINITION. The boot agent (spec/70_reset_and_hazards.md R221 to R226). -/

namespace Sys2Proof.Machine

/-- The words of an image's body, each with its high byte first; a last odd byte is ignored (R222, R224; log entry 17). -/
def imageWords : List Byte → List Word
  | hi :: lo :: rest => wordOfBytes hi lo :: imageWords rest
  | [_] => []
  | [] => []

/-- Stores words one after the other from an address on, and drops those past the end of memory (R222, R223, R225). -/
def storeWords : Nat → List Word → Memory → Memory
  | _, [], m => m
  | a, w :: ws, m => if a < 65536 then storeWords (a + 1) ws (m.write (BitVec.ofNat 16 a) w) else m

/-- The boot procedure: PC, the image's words, RUN (R221, R222). Without an image, or with one of fewer than two bytes,
the boot fails and nothing changes (R224, R226; log entries 16 and 17). -/
def State.boot (s : State) : State :=
  match s.image with
  | some (hi :: lo :: body) =>
    let origin := wordOfBytes hi lo
    { s with pc := origin, mem := storeWords origin.toNat (imageWords body) s.mem, run := .running }
  | some [_] => s
  | some [] => s
  | none => s

end Sys2Proof.Machine
end

