-- ==== Sys2Proof/Machine/Control.lean ====
section
/-! DEFINITION. BR, JMP, JSR and JSRR (spec/43_control.md R150 to R154). PC is the incremented PC. -/

namespace Sys2Proof.Machine

/-- `PC <- target`. -/
def State.jumpTo (s : State) (target : Word) : State := { s with pc := target }

/-- BR[n][z][p] #off9 (R150, R151). -/
def execBr (n z p : Bool) (off : BitVec 9) (s : State) : Host.Outcome State Fault Refusal :=
  .next (if branchTaken n z p s.cc then s.jumpTo (s.pcRel9 off) else s)

/-- JMP BaseR (R152). -/
def execJmp (base : Reg) (s : State) : Host.Outcome State Fault Refusal :=
  .next (s.jumpTo (s.reg base))

/-- JSR #off11: the link first (R153). -/
def execJsr (off : BitVec 11) (s : State) : Host.Outcome State Fault Refusal :=
  .next (s.link.jumpTo (s.link.pcRel11 off))

/-- JSRR BaseR: the base register is read AFTER the link write, so JSRR R7 falls through (R154, R233). -/
def execJsrr (base : Reg) (s : State) : Host.Outcome State Fault Refusal :=
  .next (s.link.jumpTo (s.link.reg base))

end Sys2Proof.Machine
end

