-- ==== Sys2Proof/Machine/LoadStore.lean ====
section
/-! DEFINITION. LD, LDI, LDR, LEA, ST, STI and STR (spec/42_load_store.md R130 to R136). Every read is a MemRead with its
side effect, and the accesses come in the order of spec/20_memory.md R53. -/

namespace Sys2Proof.Machine

/-- The end of every load: the operand is read at its address and becomes the result. -/
def State.loadFrom (s : State) (dr : Reg) (ea : Word) : State :=
  let r := s.memRead ea
  r.2.writeResult dr r.1

/-- LD DR,#off9 (R130). -/
def execLd (dr : Reg) (off : BitVec 9) (s : State) : Host.Outcome State Fault Refusal :=
  .next (s.loadFrom dr (s.pcRel9 off))

/-- LDI DR,#off9: the pointer is read first, then the operand (R131; log entry 25). -/
def execLdi (dr : Reg) (off : BitVec 9) (s : State) : Host.Outcome State Fault Refusal :=
  let pointer := s.memRead (s.pcRel9 off)
  .next (pointer.2.loadFrom dr pointer.1)

/-- LDR DR,BaseR,#off6 (R132). -/
def execLdr (dr base : Reg) (off : BitVec 6) (s : State) : Host.Outcome State Fault Refusal :=
  .next (s.loadFrom dr (s.baseRel base off))

/-- LEA DR,#off9: the address itself, with no memory access (R133). -/
def execLea (dr : Reg) (off : BitVec 9) (s : State) : Host.Outcome State Fault Refusal :=
  .next (s.writeResult dr (s.pcRel9 off))

/-- ST SR,#off9 (R134). -/
def execSt (sr : Reg) (off : BitVec 9) (s : State) : Host.Outcome State Fault Refusal :=
  .next (s.memWrite (s.pcRel9 off) (s.reg sr))

/-- STI SR,#off9: the pointer is read, then the store is made at it (R135; log entry 25). -/
def execSti (sr : Reg) (off : BitVec 9) (s : State) : Host.Outcome State Fault Refusal :=
  let pointer := s.memRead (s.pcRel9 off)
  .next (pointer.2.memWrite pointer.1 (pointer.2.reg sr))

/-- STR SR,BaseR,#off6 (R136). -/
def execStr (sr base : Reg) (off : BitVec 6) (s : State) : Host.Outcome State Fault Refusal :=
  .next (s.memWrite (s.baseRel base off) (s.reg sr))

end Sys2Proof.Machine
end

