-- ==== Sys2Proof/Machine/Trap.lean ====
section
/-! DEFINITION. TRAP and its six services (spec/44_trap.md R160 to R169). Every one begins with the link write (R160) and
leaves PC alone; the services are logic of the core, not programs in memory (R168). -/

namespace Sys2Proof.Machine

/-- `ConsoleGetBlocking()` and what follows it in GETC and IN: with an empty queue the service waits (R169 rendering (a));
else the head character is consumed, IN echoes it, R0 and CC receive it (R161, R164). -/
def State.finishInput (s : State) (service : InputService) : State :=
  match s.kbq with
  | [] => { s with waiting := some service }
  | c :: rest =>
    let taken := { s with kbq := rest, waiting := none }
    let echoed := match service with
      | .getc => taken
      | .input => taken.put c
    echoed.writeResult .r0 (zext c)

/-- GETC, vector 0x20 (R161). -/
def execTrapGetc (s : State) : Host.Outcome State Fault Refusal :=
  .next (s.link.finishInput .getc)

/-- OUT, vector 0x21 (R162). -/
def execTrapOut (s : State) : Host.Outcome State Fault Refusal :=
  .next (s.link.put (lowByte (s.link.reg .r0)))

/-- PUTS's loop at pointer `p`, for at most `fuel` reads: the whole word is tested, its low byte is written (R163).
`none` when the reads run out. -/
def putsLoop : Nat → Word → State → Option State
  | 0, _, _ => none
  | fuel + 1, p, s =>
    let r := s.memRead p
    if r.1 = 0 then some r.2 else putsLoop fuel (p + 1) (r.2.put (lowByte r.1))

/-- PUTSP's loop at pointer `p`, for at most `fuel` reads: low byte, then high byte, stopping at a zero byte (R165).
`none` when the reads run out. -/
def putspLoop : Nat → Word → State → Option State
  | 0, _, _ => none
  | fuel + 1, p, s =>
    let r := s.memRead p
    if lowByte r.1 = 0 then some r.2
    else if highByte r.1 = 0 then some (r.2.put (lowByte r.1))
    else putspLoop fuel (p + 1) ((r.2.put (lowByte r.1)).put (highByte r.1))

/-- More reads than a string service can make: each pass over the 65536 addresses reads KBSR once, which takes a
character from the queue or, when there is none, reads 0x0000 and ends the string (R51, U13; log entry 19). -/
def stringFuel (s : State) : Nat := 65536 * (s.kbq.length + 1)

/-- A string service ends in its last state, or hangs (R116, R163, U13; log entry 19). -/
def ofString : Option State → Host.Outcome State Fault Refusal
  | some t => .next t
  | none => .fault .stringNeverEnds

/-- PUTS, vector 0x22 (R163). -/
def execTrapPuts (s : State) : Host.Outcome State Fault Refusal :=
  ofString (putsLoop (stringFuel s) (s.link.reg .r0) s.link)

/-- IN, vector 0x23: prompt, read, echo, store, flags (R164). -/
def execTrapIn (s : State) : Host.Outcome State Fault Refusal :=
  .next ((s.link.putString s.params.inPrompt).finishInput .input)

/-- PUTSP, vector 0x24 (R165). -/
def execTrapPutsp (s : State) : Host.Outcome State Fault Refusal :=
  ofString (putspLoop (stringFuel s) (s.link.reg .r0) s.link)

/-- HALT, vector 0x25 (R166). -/
def execTrapHalt (s : State) : Host.Outcome State Fault Refusal :=
  .next ((s.link.putString s.params.haltNotice).halt .trapHalt)

/-- TRAP with a vector that has no service: the link write and nothing else (R160, R167). The decoder gives this
constructor no vector of 0x20 to 0x25, and WellFormed.lean refuses a term that holds one. -/
def execTrap (_vector : BitVec 8) (s : State) : Host.Outcome State Fault Refusal :=
  .next s.link

end Sys2Proof.Machine
end

