-- ==== Sys2Proof/Machine/Unimplemented.lean ====
section
/-! DEFINITION. RTI and the reserved opcode: both take the one exception (spec/45_unimplemented.md R180 to R182). -/

namespace Sys2Proof.Machine

/-- RTI, opcode 1000 (R180). -/
def execRti (s : State) : Host.Outcome State Fault Refusal := .next (s.raiseUnimplemented .rti)

/-- The reserved opcode 1101 (R181). -/
def execRes (s : State) : Host.Outcome State Fault Refusal := .next (s.raiseUnimplemented .reserved)

end Sys2Proof.Machine
end

