-- ==== Sys2Proof/Machine/Step.lean ====
section
/-! DEFINITION. One step of the machine (spec/00_scope.md R17, spec/40_fetch_decode.md R110). -/

namespace Sys2Proof.Machine

/-- The instruction cycle: fetch, PC increment, decode, execute (R110). -/
def State.cycle (s : State) : Host.Outcome State Fault Refusal := exec (decode s.fetch.1) s.fetch.2

/-- One step. Before boot it is the boot agent's one action (R221); in HALTED nothing happens (R115, R197); a running core
first lets the environment type (R32), then goes on waiting or ends the wait of GETC or IN (R169), or does one whole
instruction cycle (R110). -/
def step (s : State) : Host.Outcome State Fault Refusal :=
  match s.run with
  | .idle => .next s.boot
  | .halted => .next s
  | .running =>
    match s.arrive.waiting with
    | some service => .next (s.arrive.finishInput service)
    | none => s.arrive.cycle

/-- The address withFetchWord puts an instruction at: PC, unless that is `KBSR_ADDR`, where a fetch never reads what was
stored (R62), and then the next address. -/
def State.fetchAddress (s : State) : Word := if s.pc = s.params.kbsrAddr then s.pc + 1 else s.pc

/-- `s` with an instruction where the very next step fetches it: the core is running and not waiting, and the word stands
at PC (log entry 16: it stands for the boot that places a program). -/
def State.withFetchWord (s : State) (nbits w : Nat) : State :=
  { s with
    run := .running
    waiting := none
    pc := s.fetchAddress
    mem := s.mem.write s.fetchAddress (tableWord nbits w) }

end Sys2Proof.Machine
end

