-- ==== Sys2Proof/Safety.lean ====
section
/-! DEFINITION. The terms the statements use: what a state that a run can reach looks like (Inv), which registers, which
codes and which addresses the rules let an instruction touch, and what "unchanged" means. -/

namespace Sys2Proof.Machine

/-- CC holds at most one of the three flags (spec/10_state.md R23: the other four values are never produced). -/
abbrev legalCC (cc : BitVec 3) : Prop := cc = ccUnset ∨ cc = ccN ∨ cc = ccZ ∨ cc = ccP

/-- While a service waits, the core runs, no character is there to end the wait, and the link write has happened (R169). -/
abbrev State.waitOk (s : State) : Prop :=
  s.waiting = none ∨ (s.run = .running ∧ s.kbq = [] ∧ s.reg .r7 = s.pc)

/-- HALT_CAUSE is NONE exactly while the core is not halted (R25). -/
abbrev State.causeOk (s : State) : Prop := s.haltCause = .none ↔ s.run ≠ .halted

/-- Until a boot succeeds the core holds what reset left, memory and launch arguments aside (R35, R226). -/
abbrev State.idleOk (s : State) : Prop :=
  s.run = .idle → s = State.launch ⟨s.params, s.mem, s.kbq, s.arrivals, s.image⟩

/-- The invariant: memory is canonical, CC is legal, the two device addresses differ (D1), and the run state, the halt
cause and the wait agree. -/
abbrev Inv (s : State) : Prop :=
  s.mem.wf ∧ legalCC s.cc ∧ s.params.kbsrAddr ≠ s.params.kbdrAddr ∧ s.causeOk ∧ s.waitOk ∧ s.idleOk

/-- Every general register but those listed reads as before. -/
def RegsKept (s t : State) (written : List Reg) : Prop := ∀ r, r ∉ written → t.reg r = s.reg r

/-- Every cell of memory but those listed reads as before. -/
def CellsKept (s t : State) (stored : List Word) : Prop := ∀ a, a ∉ stored → t.mem.read a = s.mem.read a

/-- The keyboard queue and the output log are as before. -/
def ConsoleKept (s t : State) : Prop := t.kbq = s.kbq ∧ t.outLog = s.outLog

/-- The run state, the halt cause and the wait are as before. -/
def ControlKept (s t : State) : Prop := t.run = s.run ∧ t.haltCause = s.haltCause ∧ t.waiting = s.waiting

/-- The launch arguments are as before: parameters, image, and what the environment has still to type. -/
def LaunchKept (s t : State) : Prop := t.params = s.params ∧ t.image = s.image ∧ t.arrivals = s.arrivals

/-- Every register but those listed, CC, the run state and the launch arguments are as before. -/
def CoreKept (s t : State) (written : List Reg) : Prop :=
  RegsKept s t written ∧ t.cc = s.cc ∧ ControlKept s t ∧ LaunchKept s t

/-- A value-producing instruction's effect on the core: `v` in DR, CC from `v` (R114), and no more; PC keeps the
increment of the fetch. -/
def OnlyResult (s t : State) (dr : Reg) (v : Word) : Prop :=
  t.reg dr = v ∧ t.cc = ccOf v ∧ RegsKept s t [dr] ∧ t.pc = s.pc ∧ ControlKept s t ∧ LaunchKept s t

/-- Nothing but the core changes: every memory cell, the keyboard queue and the output log are as before. -/
def OutsideKept (s t : State) : Prop := CellsKept s t [] ∧ ConsoleKept s t

/-- What the reads at the addresses `reads` leave, `u` being the state after them: `t` holds `u`'s memory and queue;
memory and queue are as before unless an address was `KBSR_ADDR`, and then only the two device cells may differ (R51, R56). -/
def AfterReads (s u t : State) (reads : List Word) : Prop :=
  (∀ a, t.mem.read a = u.mem.read a) ∧ t.kbq = u.kbq ∧ t.outLog = s.outLog ∧
  (s.params.kbsrAddr ∉ reads → OutsideKept s t) ∧ CellsKept s t [s.params.kbsrAddr, s.params.kbdrAddr]

/-- R163's loop as a relation: PUTS at pointer `p` in state `s` ends in state `t`. -/
inductive PutsRun : State → Word → State → Prop where
  | stop (s : State) (p : Word) (zero : (s.memRead p).1 = 0) : PutsRun s p (s.memRead p).2
  | char (s t : State) (p : Word) (more : (s.memRead p).1 ≠ 0)
      (rest : PutsRun ((s.memRead p).2.put (lowByte (s.memRead p).1)) (p + 1) t) : PutsRun s p t

/-- R165's loop as a relation: PUTSP at pointer `p` in state `s` ends in state `t`. -/
inductive PutspRun : State → Word → State → Prop where
  | stopLow (s : State) (p : Word) (zero : lowByte (s.memRead p).1 = 0) : PutspRun s p (s.memRead p).2
  | stopHigh (s : State) (p : Word) (low : lowByte (s.memRead p).1 ≠ 0) (zero : highByte (s.memRead p).1 = 0) :
      PutspRun s p ((s.memRead p).2.put (lowByte (s.memRead p).1))
  | chars (s t : State) (p : Word) (low : lowByte (s.memRead p).1 ≠ 0) (high : highByte (s.memRead p).1 ≠ 0)
      (rest : PutspRun (((s.memRead p).2.put (lowByte (s.memRead p).1)).put (highByte (s.memRead p).1)) (p + 1) t) :
      PutspRun s p t

/-- The registers an instruction may write (R21): DR of the seven value-producing instructions, R7 for JSR, JSRR and
every TRAP, R0 for GETC and IN. -/
def regsWritten : Instr → List Reg
  | .addReg dr _ _ | .addImm dr _ _ | .andReg dr _ _ | .andImm dr _ _ | .not dr _ => [dr]
  | .ld dr _ | .ldi dr _ | .ldr dr _ _ | .lea dr _ => [dr]
  | .jsr _ | .jsrr _ => [.r7]
  | .trapGetc | .trapIn => [.r7, .r0]
  | .trapOut | .trapPuts | .trapPutsp | .trapHalt | .trap _ => [.r7]
  | .br .. | .st .. | .sti .. | .str .. | .jmp _ | .rti | .res => []

/-- The instructions that write CC (R23, R114): the seven value-producing ones, GETC and IN. -/
def writesCC : Instr → Bool
  | .addReg .. | .addImm .. | .andReg .. | .andImm .. | .not .. => true
  | .ld .. | .ldi .. | .ldr .. | .lea .. => true
  | .trapGetc | .trapIn => true
  | .trapOut | .trapPuts | .trapPutsp | .trapHalt | .trap _ => false
  | .jsr _ | .jsrr _ | .br .. | .st .. | .sti .. | .str .. | .jmp _ | .rti | .res => false

/-- The instructions that end a run (R24): HALT, RTI and the reserved opcode. -/
def haltsCore : Instr → Bool
  | .trapHalt | .rti | .res => true
  | .addReg .. | .addImm .. | .andReg .. | .andImm .. | .not .. => false
  | .ld .. | .ldi .. | .ldr .. | .lea .. | .st .. | .sti .. | .str .. => false
  | .br .. | .jmp _ | .jsr _ | .jsrr _ => false
  | .trapGetc | .trapOut | .trapPuts | .trapIn | .trapPutsp | .trap _ => false

/-- The instructions that write the console (R31): OUT, PUTS, IN, PUTSP, HALT and the two unimplemented opcodes. -/
def writesConsole : Instr → Bool
  | .trapOut | .trapPuts | .trapIn | .trapPutsp | .trapHalt | .rti | .res => true
  | .addReg .. | .addImm .. | .andReg .. | .andImm .. | .not .. => false
  | .ld .. | .ldi .. | .ldr .. | .lea .. | .st .. | .sti .. | .str .. => false
  | .br .. | .jmp _ | .jsr _ | .jsrr _ | .trapGetc | .trap _ => false

/-- The address an instruction stores to at the state after the fetch, if it stores (R53). -/
def storeAddress (i : Instr) (s : State) : Option Word :=
  match i with
  | .st _ off => some (s.pcRel9 off)
  | .sti _ off => some (s.memRead (s.pcRel9 off)).1
  | .str _ base off => some (s.baseRel base off)
  | .addReg .. | .addImm .. | .andReg .. | .andImm .. | .not .. => none
  | .ld .. | .ldi .. | .ldr .. | .lea .. => none
  | .br .. | .jmp _ | .jsr _ | .jsrr _ | .rti | .res => none
  | .trapGetc | .trapOut | .trapPuts | .trapIn | .trapPutsp | .trapHalt | .trap _ => none

/-- The addresses of an instruction's data reads, in order, at the state after the fetch (R53), for the instructions that
do not walk a string. -/
def dataReads (i : Instr) (s : State) : List Word :=
  match i with
  | .ld _ off => [s.pcRel9 off]
  | .ldi _ off => [s.pcRel9 off, (s.memRead (s.pcRel9 off)).1]
  | .ldr _ base off => [s.baseRel base off]
  | .sti _ off => [s.pcRel9 off]
  | .addReg .. | .addImm .. | .andReg .. | .andImm .. | .not .. | .lea .. => []
  | .st .. | .str .. | .br .. | .jmp _ | .jsr _ | .jsrr _ | .rti | .res => []
  | .trapGetc | .trapOut | .trapPuts | .trapIn | .trapPutsp | .trapHalt | .trap _ => []

/-- The four services that take characters from the console or walk a string. -/
def isInputOrString : Instr → Bool
  | .trapGetc | .trapIn | .trapPuts | .trapPutsp => true
  | .addReg .. | .addImm .. | .andReg .. | .andImm .. | .not .. => false
  | .ld .. | .ldi .. | .ldr .. | .lea .. | .st .. | .sti .. | .str .. => false
  | .br .. | .jmp _ | .jsr _ | .jsrr _ | .trapOut | .trapHalt | .trap _ | .rti | .res => false

/-- The word `i` places after `p`, addresses taken modulo 2^16 (R11, R64). -/
def wordAt (s : State) (p : Word) (i : Nat) : Word := s.mem.read (p + BitVec.ofNat 16 i)

/-- The two bytes of a word in the order PUTSP writes them, low byte first (R54, R165). -/
def packedBytes (w : Word) : List Byte := [lowByte w, highByte w]

/-- The two bytes of a word in the order of a program image, high byte first (R54, R222). -/
def imageBytes (w : Word) : List Byte := [highByte w, lowByte w]

/-- The core is about to do an instruction cycle: it runs, waits for nothing, and the environment has nothing more to type. -/
def State.ready (s : State) : Prop := s.run = .running ∧ s.waiting = none ∧ s.arrivals = .listed []

/-- The instruction the next cycle executes, once the environment has had its turn (R110, R111). -/
def State.nextInstr (s : State) : Instr := decode (s.arrive.memRead s.pc).1

end Sys2Proof.Machine
end

