-- ==== Sys2Proof/Certificates/Slice0/Obligations.lean ====
section
/-! DEFINITION. The statements for the provers, from the numbered rules of spec/. The words of a docstring between
quotation marks are the spec's. An instruction's statement has two parts: which words decode to it, whatever their
ignored bits, and what exec answers for it at every state. `w.extractLsb hi lo` is the spec's `ir[hi:lo]` (R8). -/

open Sys2Proof Sys2Proof.Machine

/-! ## Notation and state -/

/-- R9. `sext_N(v) = v` if bit N-1 is 0, else `v + (0x10000 - 2^N)`; bit by bit, every bit above N-1 is bit N-1. -/
def Obligations.SignExtensionRule : Prop :=
  ∀ (n : Nat) (v : BitVec n), 1 ≤ n → n ≤ 16 →
    (sext v).toNat = (if v.getLsbD (n - 1) then v.toNat + (65536 - 2 ^ n) else v.toNat) ∧
    ∀ i, i < 16 → (sext v).getLsbD i = if i < n then v.getLsbD i else v.getLsbD (n - 1)

/-- R20. A 3-bit field selects a register by its number; a written register reads back what was written, R0 included,
the others keep their values, and each register is 0x0000 after reset. -/
def Obligations.RegistersAreOrdinaryStorage : Prop :=
  (∀ b : BitVec 3, (Reg.ofField b).toField = b) ∧ (∀ r : Reg, Reg.ofField r.toField = r) ∧
  (∀ (s : State) (r : Reg) (v : Word), (s.setReg r v).reg r = v ∧ ∀ q, q ≠ r → (s.setReg r v).reg q = s.reg q) ∧
  ∀ (l : Launch) (r : Reg), (State.launch l).reg r = 0

/-- R114. `setcc(v)`: Z for 0x0000, N when bit 15 is 1, else P; exactly one of the three results for every value; nothing
but CC changes. -/
def Obligations.SetccRule : Prop :=
  ∀ (s : State) (v : Word),
    (v = 0 → (s.setcc v).cc = ccZ) ∧ (0x8000 ≤ v.toNat → (s.setcc v).cc = ccN) ∧
    (1 ≤ v.toNat → v.toNat ≤ 0x7FFF → (s.setcc v).cc = ccP) ∧
    ccN ≠ ccZ ∧ ccN ≠ ccP ∧ ccZ ≠ ccP ∧
    RegsKept s (s.setcc v) [] ∧ (s.setcc v).pc = s.pc ∧ OutsideKept s (s.setcc v) ∧
    ControlKept s (s.setcc v) ∧ LaunchKept s (s.setcc v)

/-- The spec's own choice D2 (log entry 6): the codes are one-hot in the order of BR's flag bits, so that "taken" is
`(ir[11:9] & CC) != 0`. The spec's own choice D3 (log entry 7): while CC is unset no BR is taken. -/
def Obligations.ConditionCodesAreOneHot : Prop :=
  ccN = 0b100 ∧ ccZ = 0b010 ∧ ccP = 0b001 ∧
  (∀ (n z p : Bool) (cc : BitVec 3), legalCC cc →
    (branchTaken n z p cc = true ↔ (BitVec.ofBool n ++ BitVec.ofBool z ++ BitVec.ofBool p) &&& cc ≠ (0 : BitVec 3))) ∧
  (∀ n z p : Bool, branchTaken n z p ccUnset = false) ∧
  ∀ cc : BitVec 3, legalCC cc → cc ≠ ccUnset → branchTaken true true true cc = true

/-- R35, column "Value after reset", for every launch. CC = 0b000 and "not RUNNING" and HALT_CAUSE = 0 are the spec's own
choices D3, D18 and D9 (log entries 7, 16, 12); memory is MEM0 (D4). State.reset is one of these launches. -/
def Obligations.ResetValues : Prop :=
  (∀ l : Launch,
    (∀ r, (State.launch l).reg r = 0) ∧ (State.launch l).pc = 0 ∧ (State.launch l).cc = 0b000 ∧
    (State.launch l).run ≠ .running ∧ (State.launch l).haltedOut = false ∧ (State.launch l).haltCauseOut = 0 ∧
    (∀ a, (State.launch l).mem.read a = l.mem0.read a) ∧ (State.launch l).kbq = l.kbq ∧
    (State.launch l).outLog = [] ∧ (State.launch l).waiting = none) ∧
  ∃ l : Launch, State.reset = State.launch l

/-! ## Memory and the keyboard -/

/-- R51. A read of KBSR_ADDR polls first; any other read changes nothing. The widening of the character is the spec's own
choice D6 (log entry 9); the queue is its choice D10 (log entry 13); that the two addresses differ is D1 (log entry 4). -/
def Obligations.MemReadRule : Prop :=
  ∀ s : State,
    (∀ a, a ≠ s.params.kbsrAddr → s.memRead a = (s.mem.read a, s)) ∧
    (s.kbq = [] →
      ∃ t, s.memRead s.params.kbsrAddr = (0x0000, t) ∧ t.mem.read s.params.kbsrAddr = 0x0000 ∧
        CellsKept s t [s.params.kbsrAddr] ∧ t.pc = s.pc ∧ CoreKept s t [] ∧ ConsoleKept s t) ∧
    (∀ c rest, s.kbq = c :: rest → s.params.kbsrAddr ≠ s.params.kbdrAddr →
      ∃ t, s.memRead s.params.kbsrAddr = (0x8000, t) ∧ t.mem.read s.params.kbsrAddr = 0x8000 ∧
        (t.mem.read s.params.kbdrAddr).toNat = c.toNat ∧ t.kbq = rest ∧ t.outLog = s.outLog ∧
        CellsKept s t [s.params.kbsrAddr, s.params.kbdrAddr] ∧ t.pc = s.pc ∧ CoreKept s t [])

/-- R52. A write stores the value at every address, "unconditionally", and does nothing else: it does not poll, does not
consume a character and produces no output. -/
def Obligations.MemWriteRule : Prop :=
  ∀ (s : State) (a v : Word),
    (s.memWrite a v).mem.read a = v ∧ CellsKept s (s.memWrite a v) [a] ∧ ConsoleKept s (s.memWrite a v) ∧
    (s.memWrite a v).pc = s.pc ∧ CoreKept s (s.memWrite a v) []

/-! ## The decoder -/

/-- Words the spec writes out in its rules decode to the instructions it gives for them. -/
def Obligations.DecodeSampleWords : Prop :=
  decode 0x14C4 = .addReg .r2 .r3 .r4 ∧ decode 0x107D = .addImm .r0 .r1 0x1D ∧ decode 0x5283 = .andReg .r1 .r2 .r3 ∧
  decode 0x947F = .not .r2 .r1 ∧ decode 0x25FF = .ld .r2 0x1FF ∧ decode 0xA601 = .ldi .r3 0x001 ∧
  decode 0x62BF = .ldr .r1 .r2 0x3F ∧ decode 0xE001 = .lea .r0 0x001 ∧ decode 0xB202 = .sti .r1 0x002 ∧
  decode 0x7402 = .str .r2 .r0 0x02 ∧ decode 0x03FD = .br false false true 0x1FD ∧ decode 0xC1C0 = .jmp .r7 ∧
  decode 0x4805 = .jsr 0x005 ∧ decode 0xF022 = .trapPuts ∧ decode 0xF026 = .trap 0x26 ∧ decode 0xDABC = .res

/-- Decoding the encoding of a well-formed instruction gives it back, every operand at every value. -/
def Obligations.DecodeEncodeRoundTrip : Prop :=
  ∀ i : Instr, i.wellFormed = true → decode (encode i) = i

/-- The other direction: what is decoded is well formed, and the canonical word of a decoded word decodes to the same
instruction and agrees with it in every bit the hardware looks at (R94, from D13; log entry 20). -/
def Obligations.EncodeOfDecodedWord : Prop :=
  ∀ w : Word, (decode w).wellFormed = true ∧ decode (encode (decode w)) = decode w ∧
    encode (decode w) &&& examinedBits (decode w) = w &&& examinedBits (decode w)

/-- R95 (derived there from R82, R90, R91): a first-match search of the opcode table in file order finds the row of the
decoded instruction, for every word, so the decoder is total and no row shadows another. -/
def Obligations.DecodeIsFirstTableMatch : Prop :=
  ∀ w : Word, opcodeTable.findIdx? (fun r => w &&& r.mask = r.pattern) = some (decode w).tableIndex

/-- R93 (its wording is the spec's own choice D13; log entry 20): words that agree on the bits their instruction looks at
are the same instruction. -/
def Obligations.IgnoredBitsDoNotMatter : Prop :=
  ∀ w v : Word, w &&& examinedBits (decode w) = v &&& examinedBits (decode w) → decode v = decode w

/-! ## Operate instructions -/

/-- R120, ADD register form. -/
def Obligations.AddRegisterForm : Prop :=
  (∀ w : Word, w.extractLsb 15 12 = 0b0001#4 → w.extractLsb 5 5 = 0#1 →
    decode w = .addReg (.ofField (w.extractLsb 11 9)) (.ofField (w.extractLsb 8 6)) (.ofField (w.extractLsb 2 0))) ∧
  ∀ (dr sr1 sr2 : Reg) (s : State), ∃ t, exec (.addReg dr sr1 sr2) s = .next t ∧
    OnlyResult s t dr (s.reg sr1 + s.reg sr2) ∧ OutsideKept s t

/-- R121, ADD immediate form. -/
def Obligations.AddImmediateForm : Prop :=
  (∀ w : Word, w.extractLsb 15 12 = 0b0001#4 → w.extractLsb 5 5 = 1#1 →
    decode w = .addImm (.ofField (w.extractLsb 11 9)) (.ofField (w.extractLsb 8 6)) (w.extractLsb 4 0)) ∧
  ∀ (dr sr1 : Reg) (imm : BitVec 5) (s : State), ∃ t, exec (.addImm dr sr1 imm) s = .next t ∧
    OnlyResult s t dr (s.reg sr1 + sext imm) ∧ OutsideKept s t

/-- R122, AND register form. -/
def Obligations.AndRegisterForm : Prop :=
  (∀ w : Word, w.extractLsb 15 12 = 0b0101#4 → w.extractLsb 5 5 = 0#1 →
    decode w = .andReg (.ofField (w.extractLsb 11 9)) (.ofField (w.extractLsb 8 6)) (.ofField (w.extractLsb 2 0))) ∧
  ∀ (dr sr1 sr2 : Reg) (s : State), ∃ t, exec (.andReg dr sr1 sr2) s = .next t ∧
    OnlyResult s t dr (s.reg sr1 &&& s.reg sr2) ∧ OutsideKept s t

/-- R123, AND immediate form. -/
def Obligations.AndImmediateForm : Prop :=
  (∀ w : Word, w.extractLsb 15 12 = 0b0101#4 → w.extractLsb 5 5 = 1#1 →
    decode w = .andImm (.ofField (w.extractLsb 11 9)) (.ofField (w.extractLsb 8 6)) (w.extractLsb 4 0)) ∧
  ∀ (dr sr1 : Reg) (imm : BitVec 5) (s : State), ∃ t, exec (.andImm dr sr1 imm) s = .next t ∧
    OnlyResult s t dr (s.reg sr1 &&& sext imm) ∧ OutsideKept s t

/-- R124, NOT: `v = 0xFFFF - x[SR]`. -/
def Obligations.NotInstruction : Prop :=
  (∀ w : Word, w.extractLsb 15 12 = 0b1001#4 → decode w = .not (.ofField (w.extractLsb 11 9)) (.ofField (w.extractLsb 8 6))) ∧
  ∀ (dr sr : Reg) (s : State), ∃ t, exec (.not dr sr) s = .next t ∧
    OnlyResult s t dr (0xFFFF - s.reg sr) ∧ OutsideKept s t

/-! ## Loads, stores, LEA -/

/-- R130, LD: the operand is read at `PC + sext_9(PCoffset9)` with the side effect of a read. -/
def Obligations.LoadPcRelative : Prop :=
  (∀ w : Word, w.extractLsb 15 12 = 0b0010#4 → decode w = .ld (.ofField (w.extractLsb 11 9)) (w.extractLsb 8 0)) ∧
  ∀ (dr : Reg) (off : BitVec 9) (s : State), ∃ t, exec (.ld dr off) s = .next t ∧
    OnlyResult s t dr (s.memRead (s.pc + sext off)).1 ∧
    AfterReads s (s.memRead (s.pc + sext off)).2 t [s.pc + sext off]

/-- R131, LDI: the pointer is read first, then the operand, each with the side effect of a read. That the offset is
sign-extended is the resolution C11 of 90_conflicts.md (log entry 25). -/
def Obligations.LoadIndirect : Prop :=
  (∀ w : Word, w.extractLsb 15 12 = 0b1010#4 → decode w = .ldi (.ofField (w.extractLsb 11 9)) (w.extractLsb 8 0)) ∧
  ∀ (dr : Reg) (off : BitVec 9) (s u v : State) (addr value : Word),
    s.memRead (s.pc + sext off) = (addr, u) → u.memRead addr = (value, v) →
    ∃ t, exec (.ldi dr off) s = .next t ∧ OnlyResult s t dr value ∧ AfterReads s v t [s.pc + sext off, addr]

/-- R132, LDR: the base register is read before DR is written. -/
def Obligations.LoadBaseOffset : Prop :=
  (∀ w : Word, w.extractLsb 15 12 = 0b0110#4 → decode w = .ldr (.ofField (w.extractLsb 11 9)) (.ofField (w.extractLsb 8 6)) (w.extractLsb 5 0)) ∧
  ∀ (dr base : Reg) (off : BitVec 6) (s : State), ∃ t, exec (.ldr dr base off) s = .next t ∧
    OnlyResult s t dr (s.memRead (s.reg base + sext off)).1 ∧
    AfterReads s (s.memRead (s.reg base + sext off)).2 t [s.reg base + sext off]

/-- R133, LEA: the address itself becomes the result and sets CC; no memory access at all. -/
def Obligations.LoadEffectiveAddress : Prop :=
  (∀ w : Word, w.extractLsb 15 12 = 0b1110#4 → decode w = .lea (.ofField (w.extractLsb 11 9)) (w.extractLsb 8 0)) ∧
  ∀ (dr : Reg) (off : BitVec 9) (s : State), ∃ t, exec (.lea dr off) s = .next t ∧
    OnlyResult s t dr (s.pc + sext off) ∧ OutsideKept s t

/-- R134, ST: the only cell that changes is the one at `PC + sext_9(PCoffset9)`; no register and no flag is written. -/
def Obligations.StorePcRelative : Prop :=
  (∀ w : Word, w.extractLsb 15 12 = 0b0011#4 → decode w = .st (.ofField (w.extractLsb 11 9)) (w.extractLsb 8 0)) ∧
  ∀ (sr : Reg) (off : BitVec 9) (s : State), ∃ t, exec (.st sr off) s = .next t ∧
    t.mem.read (s.pc + sext off) = s.reg sr ∧ CellsKept s t [s.pc + sext off] ∧
    ConsoleKept s t ∧ t.pc = s.pc ∧ CoreKept s t []

/-- R135, STI: the pointer is read, with the side effect of a read; then the only store is the one at the pointer. That
the offset is sign-extended is the resolution C11 of 90_conflicts.md (log entry 25). -/
def Obligations.StoreIndirect : Prop :=
  (∀ w : Word, w.extractLsb 15 12 = 0b1011#4 → decode w = .sti (.ofField (w.extractLsb 11 9)) (w.extractLsb 8 0)) ∧
  ∀ (sr : Reg) (off : BitVec 9) (s u : State) (addr : Word), s.memRead (s.pc + sext off) = (addr, u) →
    ∃ t, exec (.sti sr off) s = .next t ∧
      t.mem.read addr = s.reg sr ∧ CellsKept u t [addr] ∧ t.kbq = u.kbq ∧ t.outLog = s.outLog ∧
      (s.pc + sext off ≠ s.params.kbsrAddr → CellsKept s t [addr] ∧ t.kbq = s.kbq) ∧
      CellsKept s t [s.params.kbsrAddr, s.params.kbdrAddr, addr] ∧ t.pc = s.pc ∧ CoreKept s t []

/-- R136, STR: the only cell that changes is the one at `x[BaseR] + sext_6(offset6)`; no register and no flag is written. -/
def Obligations.StoreBaseOffset : Prop :=
  (∀ w : Word, w.extractLsb 15 12 = 0b0111#4 → decode w = .str (.ofField (w.extractLsb 11 9)) (.ofField (w.extractLsb 8 6)) (w.extractLsb 5 0)) ∧
  ∀ (sr base : Reg) (off : BitVec 6) (s : State), ∃ t, exec (.str sr base off) s = .next t ∧
    t.mem.read (s.reg base + sext off) = s.reg sr ∧ CellsKept s t [s.reg base + sext off] ∧
    ConsoleKept s t ∧ t.pc = s.pc ∧ CoreKept s t []

/-! ## Control transfer -/

/-- R150, BR: taken iff at least one requested flag matches CC; in every case nothing but PC changes. -/
def Obligations.ConditionalBranch : Prop :=
  (∀ w : Word, w.extractLsb 15 12 = 0b0000#4 →
    decode w = .br (w.getLsbD 11) (w.getLsbD 10) (w.getLsbD 9) (w.extractLsb 8 0)) ∧
  ∀ (n z p : Bool) (off : BitVec 9) (s : State), ∃ t, exec (.br n z p off) s = .next t ∧
    ((n = true ∧ s.cc = ccN) ∨ (z = true ∧ s.cc = ccZ) ∨ (p = true ∧ s.cc = ccP) → t.pc = s.pc + sext off) ∧
    (¬((n = true ∧ s.cc = ccN) ∨ (z = true ∧ s.cc = ccZ) ∨ (p = true ∧ s.cc = ccP)) → t.pc = s.pc) ∧
    CoreKept s t [] ∧ OutsideKept s t

/-- R152, JMP (and RET): PC becomes the base register; nothing else changes, R7 included. -/
def Obligations.JumpThroughRegister : Prop :=
  (∀ w : Word, w.extractLsb 15 12 = 0b1100#4 → decode w = .jmp (.ofField (w.extractLsb 8 6))) ∧
  decode 0xC1C0 = .jmp .r7 ∧
  ∀ (base : Reg) (s : State), ∃ t, exec (.jmp base) s = .next t ∧
    t.pc = s.reg base ∧ CoreKept s t [] ∧ OutsideKept s t

/-- R153, JSR: the incremented PC goes to R7, then PC moves; CC is unchanged although a register is written. -/
def Obligations.JumpToSubroutine : Prop :=
  (∀ w : Word, w.extractLsb 15 12 = 0b0100#4 → w.extractLsb 11 11 = 1#1 → decode w = .jsr (w.extractLsb 10 0)) ∧
  ∀ (off : BitVec 11) (s : State), ∃ t, exec (.jsr off) s = .next t ∧
    t.reg .r7 = s.pc ∧ t.pc = s.pc + sext off ∧ CoreKept s t [.r7] ∧ OutsideKept s t

/-- R154, JSRR: the link write comes first and the base register is read second, so `JSRR R7` falls through. -/
def Obligations.JumpToSubroutineThroughRegister : Prop :=
  (∀ w : Word, w.extractLsb 15 12 = 0b0100#4 → w.extractLsb 11 11 = 0#1 → decode w = .jsrr (.ofField (w.extractLsb 8 6))) ∧
  ∀ (base : Reg) (s : State), ∃ t, exec (.jsrr base) s = .next t ∧
    t.reg .r7 = s.pc ∧ (base ≠ .r7 → t.pc = s.reg base) ∧ (base = .r7 → t.pc = s.pc) ∧
    CoreKept s t [.r7] ∧ OutsideKept s t

/-! ## TRAP and its services -/

/-- R160, the common part: the vector alone selects the service, bits 11:8 are ignored, and whatever the service does,
R7 holds the incremented PC, PC is not changed, no register but R7 and R0 is, R0 and CC are written by GETC and IN only,
and no cell of memory but the two device cells is touched (R168). That PUTS and PUTSP keep R0 is D7 (log entry 10), that
they may touch the device cells is D5 (log entry 8), and a term `trap v` with a service vector is log entry 27. -/
def Obligations.TrapCommonPart : Prop :=
  (∀ (w : Word) (v : BitVec 8), w.extractLsb 15 12 = 0b1111#4 → w.extractLsb 7 0 = v → decode w =
    if v = 0x20 then .trapGetc else if v = 0x21 then .trapOut else if v = 0x22 then .trapPuts
    else if v = 0x23 then .trapIn else if v = 0x24 then .trapPutsp else if v = 0x25 then .trapHalt else .trap v) ∧
  ∀ (i : Instr) (s t : State),
    i ∈ [.trapGetc, .trapOut, .trapPuts, .trapIn, .trapPutsp, .trapHalt] ∨ (∃ v, i = .trap v) →
    exec i s = .next t → t.reg .r7 = s.pc ∧ t.pc = s.pc ∧ RegsKept s t [.r7, .r0] ∧
      (i ≠ .trapGetc → i ≠ .trapIn → RegsKept s t [.r7] ∧ t.cc = s.cc) ∧
      CellsKept s t [s.params.kbsrAddr, s.params.kbdrAddr] ∧ LaunchKept s t

/-- R167: a vector outside 0x20 to 0x25 does the link write and nothing else; the core stays RUNNING. -/
def Obligations.UndefinedTrapVector : Prop :=
  (∀ (w : Word) (v : BitVec 8), w.extractLsb 15 12 = 0b1111#4 → w.extractLsb 7 0 = v →
    v.toNat < 0x20 ∨ 0x25 < v.toNat → decode w = .trap v) ∧
  ∀ (v : BitVec 8) (s : State), v.toNat < 0x20 ∨ 0x25 < v.toNat → ∃ t, exec (.trap v) s = .next t ∧
    t.reg .r7 = s.pc ∧ t.pc = s.pc ∧ CoreKept s t [.r7] ∧ OutsideKept s t

/-- R161, GETC. The zero upper byte is the spec's own choice D6 (log entry 9), the queue D10 (log entry 13), and what a
GETC without a character leaves is D19 with R169's split rendering (log entry 15). -/
def Obligations.GetcService : Prop :=
  (∀ (s : State) (c : Byte) (rest : List Byte), s.kbq = c :: rest → ∃ t, exec .trapGetc s = .next t ∧
    (t.reg .r0).toNat = c.toNat ∧ t.reg .r7 = s.pc ∧ t.cc = (if c = 0 then ccZ else ccP) ∧ t.kbq = rest ∧
    t.waiting = none ∧ t.outLog = s.outLog ∧ CellsKept s t [] ∧ RegsKept s t [.r0, .r7] ∧ t.pc = s.pc ∧
    t.run = s.run ∧ t.haltCause = s.haltCause ∧ LaunchKept s t) ∧
  ∀ s : State, s.kbq = [] → ∃ t, exec .trapGetc s = .next t ∧
    t.waiting = some .getc ∧ t.reg .r7 = s.pc ∧ t.cc = s.cc ∧ t.kbq = [] ∧ t.outLog = s.outLog ∧
    CellsKept s t [] ∧ RegsKept s t [.r7] ∧ t.pc = s.pc ∧ t.run = s.run ∧ t.haltCause = s.haltCause ∧ LaunchKept s t

/-- R164, IN: prompt, read, echo, store, flags. Besides GETC's choices it rests on D8 (log entries 5 and 11): one output
log, the prompt a parameter, the echo one byte. -/
def Obligations.InService : Prop :=
  (∀ (s : State) (c : Byte) (rest : List Byte), s.kbq = c :: rest → ∃ t, exec .trapIn s = .next t ∧
    (t.reg .r0).toNat = c.toNat ∧ t.reg .r7 = s.pc ∧ t.cc = (if c = 0 then ccZ else ccP) ∧ t.kbq = rest ∧
    t.waiting = none ∧ t.outLog = s.outLog ++ s.params.inPrompt ++ [c] ∧ CellsKept s t [] ∧
    RegsKept s t [.r0, .r7] ∧ t.pc = s.pc ∧ t.run = s.run ∧ t.haltCause = s.haltCause ∧ LaunchKept s t) ∧
  ∀ s : State, s.kbq = [] → ∃ t, exec .trapIn s = .next t ∧
    t.waiting = some .input ∧ t.reg .r7 = s.pc ∧ t.cc = s.cc ∧ t.kbq = [] ∧
    t.outLog = s.outLog ++ s.params.inPrompt ∧ CellsKept s t [] ∧ RegsKept s t [.r7] ∧ t.pc = s.pc ∧
    t.run = s.run ∧ t.haltCause = s.haltCause ∧ LaunchKept s t

/-- R169 and R32 (D10, D19; log entries 13, 14, 15, 28): a waiting core does nothing until a character is there, and then
takes it; IN echoes it. `s.arrivals.now` is what the environment types before the step, under any schedule. The zero upper
byte of R0, and so Z or P in CC, is D6 (log entry 9); the one-byte echo into the one log is D8 (log entry 11). -/
def Obligations.WaitingForACharacter : Prop :=
  ∀ (s : State) (service : InputService), s.run = .running → s.waiting = some service →
    (s.kbq ++ s.arrivals.now = [] → step s = .next { s with arrivals := s.arrivals.later }) ∧
    ∀ c rest, s.kbq ++ s.arrivals.now = c :: rest → ∃ t, step s = .next t ∧
      (t.reg .r0).toNat = c.toNat ∧ t.cc = (if c = 0 then ccZ else ccP) ∧ t.kbq = rest ∧ t.waiting = none ∧
      t.outLog = s.outLog ++ (if service = .input then [c] else []) ∧
      CellsKept s t [] ∧ RegsKept s t [.r0] ∧ t.pc = s.pc ∧ t.run = .running ∧ t.haltCause = s.haltCause ∧
      t.params = s.params ∧ t.image = s.image ∧ t.arrivals = s.arrivals.later

/-- R162, OUT: the low 8 bits of R0 go to the output log (D10; log entry 13); R0 is unchanged. -/
def Obligations.OutService : Prop :=
  ∀ s : State, ∃ t, exec .trapOut s = .next t ∧
    t.outLog = s.outLog ++ [(s.reg .r0).setWidth 8] ∧ t.kbq = s.kbq ∧ t.reg .r7 = s.pc ∧ t.pc = s.pc ∧
    CoreKept s t [.r7] ∧ CellsKept s t []

/-- R163, PUTS, as a loop: the service always ends, and it ends where R163's loop does. That every string ends rests on
D5 (log entry 8) with the finite queue of D10: a read of KBSR_ADDR with no character pending is 0x0000 (log entry 19).
That R0 is unchanged and the loop has a pointer of its own, which wraps, is D7 (log entry 10). -/
def Obligations.PutsServiceCompletes : Prop :=
  ∀ s : State, ∃ t, exec .trapPuts s = .next t ∧ PutsRun s.link (s.reg .r0) t ∧
    t.reg .r7 = s.pc ∧ t.pc = s.pc ∧ CoreKept s t [.r7] ∧ CellsKept s t [s.params.kbsrAddr, s.params.kbdrAddr]

/-- R163, PUTS, for a string that does not cross KBSR_ADDR: the low byte of each word up to the first zero word; R0 is
unchanged (D7; log entry 10), and so is memory. -/
def Obligations.PutsWritesTheString : Prop :=
  ∀ (s : State) (n : Nat),
    (∀ i, i < n → wordAt s (s.reg .r0) i ≠ 0) → wordAt s (s.reg .r0) n = 0 →
    (∀ i, i ≤ n → s.reg .r0 + BitVec.ofNat 16 i ≠ s.params.kbsrAddr) →
    ∃ t, exec .trapPuts s = .next t ∧
      t.outLog = s.outLog ++ (List.range n).map (fun i => lowByte (wordAt s (s.reg .r0) i)) ∧
      t.kbq = s.kbq ∧ t.reg .r7 = s.pc ∧ t.pc = s.pc ∧ CoreKept s t [.r7] ∧ CellsKept s t []

/-- R163, PUTS, for a string that runs into KBSR_ADDR with no character pending: it ends there, the stored KBSR is
cleared, and nothing else in memory changes (D5; log entry 8). That R0 is unchanged is D7 (log entry 10). -/
def Obligations.PutsStopsAtTheKeyboard : Prop :=
  ∀ (s : State) (n : Nat),
    (∀ i, i < n → wordAt s (s.reg .r0) i ≠ 0 ∧ s.reg .r0 + BitVec.ofNat 16 i ≠ s.params.kbsrAddr) →
    s.reg .r0 + BitVec.ofNat 16 n = s.params.kbsrAddr → s.kbq = [] →
    ∃ t, exec .trapPuts s = .next t ∧
      t.outLog = s.outLog ++ (List.range n).map (fun i => lowByte (wordAt s (s.reg .r0) i)) ∧
      t.kbq = [] ∧ t.mem.read s.params.kbsrAddr = 0 ∧ CellsKept s t [s.params.kbsrAddr] ∧
      t.reg .r7 = s.pc ∧ t.pc = s.pc ∧ CoreKept s t [.r7]

/-- R165, PUTSP, as a loop: the service always ends, and it ends where R165's loop does (D5, D10; log entries 8, 19).
That R0 is unchanged and the loop has a pointer of its own, which wraps, is D7 (log entry 10). -/
def Obligations.PutspServiceCompletes : Prop :=
  ∀ s : State, ∃ t, exec .trapPutsp s = .next t ∧ PutspRun s.link (s.reg .r0) t ∧
    t.reg .r7 = s.pc ∧ t.pc = s.pc ∧ CoreKept s t [.r7] ∧ CellsKept s t [s.params.kbsrAddr, s.params.kbdrAddr]

/-- R165, PUTSP, for a string that does not cross KBSR_ADDR: `n` full words, each low byte first, then the last word's
low byte if only its high byte is zero. A zero byte is never output; R0 is unchanged (D7; log entry 10). -/
def Obligations.PutspWritesThePackedString : Prop :=
  ∀ (s : State) (n : Nat),
    (∀ i, i < n → lowByte (wordAt s (s.reg .r0) i) ≠ 0 ∧ highByte (wordAt s (s.reg .r0) i) ≠ 0) →
    (lowByte (wordAt s (s.reg .r0) n) = 0 ∨ highByte (wordAt s (s.reg .r0) n) = 0) →
    (∀ i, i ≤ n → s.reg .r0 + BitVec.ofNat 16 i ≠ s.params.kbsrAddr) →
    ∃ t, exec .trapPutsp s = .next t ∧
      t.outLog = s.outLog ++ (List.range n).flatMap (fun i => packedBytes (wordAt s (s.reg .r0) i)) ++
        (if lowByte (wordAt s (s.reg .r0) n) = 0 then [] else [lowByte (wordAt s (s.reg .r0) n)]) ∧
      t.kbq = s.kbq ∧ t.reg .r7 = s.pc ∧ t.pc = s.pc ∧ CoreKept s t [.r7] ∧ CellsKept s t []

/-- R166, HALT: the halt notice, HALT_CAUSE = 1, RUN = HALTED, after the link write. The text is a parameter (D8; log
entry 5) and the cause register is the spec's own choice D9 (log entry 12). -/
def Obligations.HaltService : Prop :=
  ∀ s : State, ∃ t, exec .trapHalt s = .next t ∧
    t.outLog = s.outLog ++ s.params.haltNotice ∧ t.haltCauseOut = 1 ∧ t.haltedOut = true ∧ t.kbq = s.kbq ∧
    t.reg .r7 = s.pc ∧ t.pc = s.pc ∧ t.cc = s.cc ∧ RegsKept s t [.r7] ∧ CellsKept s t [] ∧
    t.waiting = s.waiting ∧ LaunchKept s t

/-! ## The one exception -/

/-- R180, R181, R191: opcodes 1000 and 1101, whatever their other bits, emit their diagnostic, set HALT_CAUSE to 2 or 3
and halt; nothing is saved and no register, flag or memory cell changes. Texts and cause: D8, D9 (log entries 5, 12). -/
def Obligations.UnimplementedOpcodeEntry : Prop :=
  (∀ w : Word, w.extractLsb 15 12 = 0b1000#4 → decode w = .rti) ∧
  (∀ w : Word, w.extractLsb 15 12 = 0b1101#4 → decode w = .res) ∧
  ∀ s : State,
    (∃ t, exec .rti s = .next t ∧ t.outLog = s.outLog ++ s.params.diagRti ∧ t.haltCauseOut = 2 ∧ t.haltedOut = true ∧
      t.pc = s.pc ∧ t.cc = s.cc ∧ RegsKept s t [] ∧ CellsKept s t [] ∧ t.kbq = s.kbq ∧ t.waiting = s.waiting ∧
      LaunchKept s t) ∧
    ∃ t, exec .res s = .next t ∧ t.outLog = s.outLog ++ s.params.diagRes ∧ t.haltCauseOut = 3 ∧ t.haltedOut = true ∧
      t.pc = s.pc ∧ t.cc = s.cc ∧ RegsKept s t [] ∧ CellsKept s t [] ∧ t.kbq = s.kbq ∧ t.waiting = s.waiting ∧
      LaunchKept s t

/-! ## The cycle, the boot and the end of a run -/

/-- R110, R111: fetch through the ordinary read, PC + 1 before anything else, decode, execute. -/
def Obligations.StepRunsTheDecodedInstruction : Prop :=
  ∀ (s u : State) (ir : Word), s.ready → s.memRead s.pc = (ir, u) →
    step s = exec (decode ir) { u with pc := s.pc + 1 }

/-- R32 (D10; log entries 14, 28): under every schedule, what the environment types before a step goes to the tail of the
queue, and the step is the cycle of that state. A listed schedule gives its entries one by one and then nothing; an endless
one gives the free values Config.typing, turn after turn, and is never over. -/
def Obligations.TypingComesBeforeTheCycle : Prop :=
  (∀ (s u : State) (ir : Word), s.run = .running → s.waiting = none →
    State.memRead { s with kbq := s.kbq ++ s.arrivals.now, arrivals := s.arrivals.later } s.pc = (ir, u) →
    step s = exec (decode ir) { u with pc := s.pc + 1 }) ∧
  (∀ typed later, (Arrivals.listed (typed :: later)).now = typed ∧
    (Arrivals.listed (typed :: later)).later = .listed later) ∧
  (Arrivals.listed []).now = [] ∧ (Arrivals.listed []).later = .listed [] ∧
  ∀ schedule turn, (Arrivals.endless schedule turn).now = Config.typing schedule turn ∧
    (Arrivals.endless schedule turn).later = .endless schedule (turn + 1)

/-- R115: the halting cycle's PC increment has happened; from then on there is no fetch, no PC change and no memory or
console access, however many steps are asked for. That a step of a halted core answers the same state is log entry 18;
that nothing is typed into the queue of a halted core is log entry 14. -/
def Obligations.HaltedCoreDoesNothing : Prop :=
  (∀ s t : State, s.run = .running → step s = .next t → t.run = .halted → t.pc = s.pc + 1) ∧
  ∀ (s : State) (k : Nat), s.run = .halted → Sys2Proof.core.run k s = .next s

/-- R223, with the placement of R222: the words stand from the origin on, high byte first; words past 0xFFFF are dropped
without error and nothing wraps; PC is the origin, the core runs, and nothing else changes. -/
def Obligations.BootPlacesTheImage : Prop :=
  ∀ (s : State) (origin : Word) (words : List Word),
    s.run = .idle → s.image = some (imageBytes origin ++ words.flatMap imageBytes) →
    ∃ t, step s = .next t ∧ t.run = .running ∧ t.pc = origin ∧
      (∀ i (h : i < words.length), origin.toNat + i < 65536 →
        t.mem.read (BitVec.ofNat 16 (origin.toNat + i)) = words[i]) ∧
      (∀ a : Word, a.toNat < origin.toNat ∨ origin.toNat + words.length ≤ a.toNat → t.mem.read a = s.mem.read a) ∧
      RegsKept s t [] ∧ t.cc = s.cc ∧ t.haltCause = s.haltCause ∧ t.waiting = s.waiting ∧ ConsoleKept s t ∧ LaunchKept s t

/-- R224, R226 (the spec's own choices D12, D18; log entries 16, 17): with no image, or one of fewer than two bytes, the
core stays as reset left it; a last odd byte of an image is ignored. -/
def Obligations.MalformedImages : Prop :=
  (∀ s : State, s.run = .idle → s.image = none → step s = .next s) ∧
  (∀ (s : State) (bytes : List Byte), s.run = .idle → s.image = some bytes → bytes.length < 2 → step s = .next s) ∧
  ∀ (s : State) (origin : Word) (words : List Word) (odd : Byte),
    s.run = .idle → s.image = some (imageBytes origin ++ words.flatMap imageBytes ++ [odd]) →
    ∃ t u, step s = .next t ∧
      step { s with image := some (imageBytes origin ++ words.flatMap imageBytes) } = .next u ∧
      t = { u with image := s.image }

/-- R62 (derived there): a store is seen by the very next fetch. `ST` with offset 0 overwrites the word after itself, and
the next cycle executes what was stored. -/
def Obligations.NextFetchSeesTheStore : Prop :=
  ∀ (s : State) (sr : Reg), s.ready → s.pc ≠ s.params.kbsrAddr → s.pc + 1 ≠ s.params.kbsrAddr →
    decode (s.mem.read s.pc) = .st sr 0 →
    ∃ t, step s = .next t ∧ t.ready ∧ step t = exec (decode (s.reg sr)) { t with pc := s.pc + 2 }

/-! ## The whole machine -/

/-- The invariant holds after every launch with a canonical MEM0 and two different device addresses (D1; log entry 4),
State.reset among them. -/
def Obligations.ResetMeetsInvariant : Prop :=
  (∀ l : Launch, l.mem0.wf → l.params.kbsrAddr ≠ l.params.kbdrAddr → Inv (State.launch l)) ∧ Inv State.reset

/-- Every step keeps the invariant: canonical memory, a legal CC (R23), HALT_CAUSE = NONE exactly while not halted (R25),
the link written while a service waits (R169), and the reset state until a boot succeeds (R226). -/
def Obligations.StepKeepsInvariant : Prop :=
  ∀ s t : State, Inv s → step s = .next t → Inv t

/-- R116 (its exception for string services cannot arise: D5, D10; log entry 19): every step of every state completes; no
word, no address and no data stops the machine. A GETC or IN without a character, which R116 excepts, is a step that ends in
a wait, and each turn of the wait is a step (D19; log entry 15); so are a turn in HALTED (log entry 18) and the boot, or the
lack of one, before a program runs (D18; log entry 16). -/
def Obligations.EveryStepCompletes : Prop :=
  ∀ s : State, ∃ t, step s = .next t

/-- R24: a running core becomes HALTED by HALT, RTI and the reserved opcode and by nothing else; no step leads back to
the state before boot, and none leaves HALTED (D16, D18; log entries 16, 18). -/
def Obligations.ThreeWaysToHalt : Prop :=
  ∀ s t : State, step s = .next t →
    (s.run = .running → (t.run = .halted ↔ s.waiting = none ∧ haltsCore s.nextInstr = true)) ∧
    (s.run = .running → t.run ≠ .idle) ∧ (s.run = .halted → t.run = .halted) ∧ (s.run = .idle → t.run ≠ .halted)

/-- R21 (derived there): a step writes no register but those its instruction may write. That PUTS and PUTSP keep R0 is D7
(log entry 10); that the end of a wait is a step of its own, which writes R0 only, is log entry 15. -/
def Obligations.OnlyTheListedRegistersAreWritten : Prop :=
  ∀ s t : State, s.run = .running → step s = .next t →
    (s.waiting = none → RegsKept s t (regsWritten s.nextInstr)) ∧ (s.waiting ≠ none → RegsKept s t [.r0])

/-- R23: CC is written by the seven value-producing instructions, GETC and IN, and by nothing else; when one of them has
completed, CC is exactly one of N, Z, P. -/
def Obligations.OnlyTheListedInstructionsWriteCC : Prop :=
  ∀ s t : State, s.run = .running → s.waiting = none → step s = .next t →
    (writesCC s.nextInstr = false → t.cc = s.cc) ∧
    (writesCC s.nextInstr = true → t.waiting = none → t.cc = ccN ∨ t.cc = ccZ ∨ t.cc = ccP)

/-- R30, R31 (D8, D10; log entries 11, 13): the output log only grows, and only by the services and the halt diagnostics; the
core takes characters from the head of the queue and puts none back. When the environment types, and that it types nothing
before boot and in HALTED, is log entry 14. -/
def Obligations.ConsoleIsALogAndAQueue : Prop :=
  ∀ s t : State, step s = .next t →
    (∃ bytes, t.outLog = s.outLog ++ bytes) ∧
    (s.run = .running → s.waiting = none → writesConsole s.nextInstr = false → t.outLog = s.outLog) ∧
    (s.run = .running → ∃ taken, s.arrive.kbq = taken ++ t.kbq) ∧ (s.run ≠ .running → t.kbq = s.kbq)

/-- R52, R56, R59: a running core's step changes no memory cell but the one its instruction stores to and, by a poll, the
two device cells. -/
def Obligations.OnlyStoresAndPollsChangeMemory : Prop :=
  ∀ (s t : State) (a : Word), s.run = .running → s.waiting = none → step s = .next t →
    a ≠ s.params.kbsrAddr → a ≠ s.params.kbdrAddr →
    storeAddress s.nextInstr s.arrive.fetch.2 ≠ some a → t.mem.read a = s.mem.read a

/-- R5, R7, R221: no step changes a parameter or the image, and the environment's schedule moves on by one turn with each
step of a running core and at no other time (log entries 14, 22, 28). -/
def Obligations.LaunchArgumentsAreFixed : Prop :=
  ∀ s t : State, step s = .next t →
    t.params = s.params ∧ t.image = s.image ∧
    t.arrivals = if s.run = .running then s.arrivals.later else s.arrivals

/-- R193: "a typed character changes nothing in the core until the program polls `KBSR_ADDR` or executes GETC or IN". For
every instruction but GETC, IN and the two string services: if no access of the cycle reads KBSR_ADDR, a step of the core
with more characters queued is the same step, with the same characters still queued. -/
def Obligations.TypingIsUnseenUntilPolled : Prop :=
  ∀ (s t : State) (typed : List Byte), s.ready → s.pc ≠ s.params.kbsrAddr →
    isInputOrString s.nextInstr = false →
    (∀ a ∈ dataReads s.nextInstr { s with pc := s.pc + 1 }, a ≠ s.params.kbsrAddr) →
    step s = .next t → step (s.typed typed) = .next (t.typed typed)
end

