-- ==== Sys2Proof/Laws/State.lean ====
section
/-! SUPPORT. One lemma per field per update of State, each true by `rfl`: a later proof unfolds no record update.
The operations with cases inside (the poll, MemRead, the environment's turn) keep the fields named at the end. -/

namespace Sys2Proof.Machine

/-! ### setReg -/

@[simp] theorem State.setReg_regs (s : State) (i : Reg) (v : Word) : (s.setReg i v).regs = s.regs.set i v := rfl
@[simp] theorem State.setReg_pc (s : State) (i : Reg) (v : Word) : (s.setReg i v).pc = s.pc := rfl
@[simp] theorem State.setReg_cc (s : State) (i : Reg) (v : Word) : (s.setReg i v).cc = s.cc := rfl
@[simp] theorem State.setReg_run (s : State) (i : Reg) (v : Word) : (s.setReg i v).run = s.run := rfl
@[simp] theorem State.setReg_haltCause (s : State) (i : Reg) (v : Word) : (s.setReg i v).haltCause = s.haltCause := rfl
@[simp] theorem State.setReg_mem (s : State) (i : Reg) (v : Word) : (s.setReg i v).mem = s.mem := rfl
@[simp] theorem State.setReg_kbq (s : State) (i : Reg) (v : Word) : (s.setReg i v).kbq = s.kbq := rfl
@[simp] theorem State.setReg_outLog (s : State) (i : Reg) (v : Word) : (s.setReg i v).outLog = s.outLog := rfl
@[simp] theorem State.setReg_waiting (s : State) (i : Reg) (v : Word) : (s.setReg i v).waiting = s.waiting := rfl
@[simp] theorem State.setReg_arrivals (s : State) (i : Reg) (v : Word) : (s.setReg i v).arrivals = s.arrivals := rfl
@[simp] theorem State.setReg_image (s : State) (i : Reg) (v : Word) : (s.setReg i v).image = s.image := rfl
@[simp] theorem State.setReg_params (s : State) (i : Reg) (v : Word) : (s.setReg i v).params = s.params := rfl

/-! ### setcc -/

@[simp] theorem State.setcc_regs (s : State) (v : Word) : (s.setcc v).regs = s.regs := rfl
@[simp] theorem State.setcc_pc (s : State) (v : Word) : (s.setcc v).pc = s.pc := rfl
@[simp] theorem State.setcc_cc (s : State) (v : Word) : (s.setcc v).cc = ccOf v := rfl
@[simp] theorem State.setcc_run (s : State) (v : Word) : (s.setcc v).run = s.run := rfl
@[simp] theorem State.setcc_haltCause (s : State) (v : Word) : (s.setcc v).haltCause = s.haltCause := rfl
@[simp] theorem State.setcc_mem (s : State) (v : Word) : (s.setcc v).mem = s.mem := rfl
@[simp] theorem State.setcc_kbq (s : State) (v : Word) : (s.setcc v).kbq = s.kbq := rfl
@[simp] theorem State.setcc_outLog (s : State) (v : Word) : (s.setcc v).outLog = s.outLog := rfl
@[simp] theorem State.setcc_waiting (s : State) (v : Word) : (s.setcc v).waiting = s.waiting := rfl
@[simp] theorem State.setcc_arrivals (s : State) (v : Word) : (s.setcc v).arrivals = s.arrivals := rfl
@[simp] theorem State.setcc_image (s : State) (v : Word) : (s.setcc v).image = s.image := rfl
@[simp] theorem State.setcc_params (s : State) (v : Word) : (s.setcc v).params = s.params := rfl
@[simp] theorem State.setcc_reg (s : State) (v : Word) (r : Reg) : (s.setcc v).reg r = s.reg r := rfl

/-! ### writeResult -/

@[simp] theorem State.writeResult_regs (s : State) (i : Reg) (v : Word) : (s.writeResult i v).regs = s.regs.set i v := rfl
@[simp] theorem State.writeResult_pc (s : State) (i : Reg) (v : Word) : (s.writeResult i v).pc = s.pc := rfl
@[simp] theorem State.writeResult_cc (s : State) (i : Reg) (v : Word) : (s.writeResult i v).cc = ccOf v := rfl
@[simp] theorem State.writeResult_run (s : State) (i : Reg) (v : Word) : (s.writeResult i v).run = s.run := rfl
@[simp] theorem State.writeResult_haltCause (s : State) (i : Reg) (v : Word) : (s.writeResult i v).haltCause = s.haltCause := rfl
@[simp] theorem State.writeResult_mem (s : State) (i : Reg) (v : Word) : (s.writeResult i v).mem = s.mem := rfl
@[simp] theorem State.writeResult_kbq (s : State) (i : Reg) (v : Word) : (s.writeResult i v).kbq = s.kbq := rfl
@[simp] theorem State.writeResult_outLog (s : State) (i : Reg) (v : Word) : (s.writeResult i v).outLog = s.outLog := rfl
@[simp] theorem State.writeResult_waiting (s : State) (i : Reg) (v : Word) : (s.writeResult i v).waiting = s.waiting := rfl
@[simp] theorem State.writeResult_arrivals (s : State) (i : Reg) (v : Word) : (s.writeResult i v).arrivals = s.arrivals := rfl
@[simp] theorem State.writeResult_image (s : State) (i : Reg) (v : Word) : (s.writeResult i v).image = s.image := rfl
@[simp] theorem State.writeResult_params (s : State) (i : Reg) (v : Word) : (s.writeResult i v).params = s.params := rfl

/-! ### memWrite -/

@[simp] theorem State.memWrite_regs (s : State) (a v : Word) : (s.memWrite a v).regs = s.regs := rfl
@[simp] theorem State.memWrite_pc (s : State) (a v : Word) : (s.memWrite a v).pc = s.pc := rfl
@[simp] theorem State.memWrite_cc (s : State) (a v : Word) : (s.memWrite a v).cc = s.cc := rfl
@[simp] theorem State.memWrite_run (s : State) (a v : Word) : (s.memWrite a v).run = s.run := rfl
@[simp] theorem State.memWrite_haltCause (s : State) (a v : Word) : (s.memWrite a v).haltCause = s.haltCause := rfl
@[simp] theorem State.memWrite_mem (s : State) (a v : Word) : (s.memWrite a v).mem = s.mem.write a v := rfl
@[simp] theorem State.memWrite_kbq (s : State) (a v : Word) : (s.memWrite a v).kbq = s.kbq := rfl
@[simp] theorem State.memWrite_outLog (s : State) (a v : Word) : (s.memWrite a v).outLog = s.outLog := rfl
@[simp] theorem State.memWrite_waiting (s : State) (a v : Word) : (s.memWrite a v).waiting = s.waiting := rfl
@[simp] theorem State.memWrite_arrivals (s : State) (a v : Word) : (s.memWrite a v).arrivals = s.arrivals := rfl
@[simp] theorem State.memWrite_image (s : State) (a v : Word) : (s.memWrite a v).image = s.image := rfl
@[simp] theorem State.memWrite_params (s : State) (a v : Word) : (s.memWrite a v).params = s.params := rfl
@[simp] theorem State.memWrite_reg (s : State) (a v : Word) (r : Reg) : (s.memWrite a v).reg r = s.reg r := rfl

/-! ### putString -/

@[simp] theorem State.putString_regs (s : State) (bs : List Byte) : (s.putString bs).regs = s.regs := rfl
@[simp] theorem State.putString_pc (s : State) (bs : List Byte) : (s.putString bs).pc = s.pc := rfl
@[simp] theorem State.putString_cc (s : State) (bs : List Byte) : (s.putString bs).cc = s.cc := rfl
@[simp] theorem State.putString_run (s : State) (bs : List Byte) : (s.putString bs).run = s.run := rfl
@[simp] theorem State.putString_haltCause (s : State) (bs : List Byte) : (s.putString bs).haltCause = s.haltCause := rfl
@[simp] theorem State.putString_mem (s : State) (bs : List Byte) : (s.putString bs).mem = s.mem := rfl
@[simp] theorem State.putString_kbq (s : State) (bs : List Byte) : (s.putString bs).kbq = s.kbq := rfl
@[simp] theorem State.putString_outLog (s : State) (bs : List Byte) : (s.putString bs).outLog = s.outLog ++ bs := rfl
@[simp] theorem State.putString_waiting (s : State) (bs : List Byte) : (s.putString bs).waiting = s.waiting := rfl
@[simp] theorem State.putString_arrivals (s : State) (bs : List Byte) : (s.putString bs).arrivals = s.arrivals := rfl
@[simp] theorem State.putString_image (s : State) (bs : List Byte) : (s.putString bs).image = s.image := rfl
@[simp] theorem State.putString_params (s : State) (bs : List Byte) : (s.putString bs).params = s.params := rfl
@[simp] theorem State.putString_reg (s : State) (bs : List Byte) (r : Reg) : (s.putString bs).reg r = s.reg r := rfl

/-! ### put -/

@[simp] theorem State.put_regs (s : State) (b : Byte) : (s.put b).regs = s.regs := rfl
@[simp] theorem State.put_pc (s : State) (b : Byte) : (s.put b).pc = s.pc := rfl
@[simp] theorem State.put_cc (s : State) (b : Byte) : (s.put b).cc = s.cc := rfl
@[simp] theorem State.put_run (s : State) (b : Byte) : (s.put b).run = s.run := rfl
@[simp] theorem State.put_haltCause (s : State) (b : Byte) : (s.put b).haltCause = s.haltCause := rfl
@[simp] theorem State.put_mem (s : State) (b : Byte) : (s.put b).mem = s.mem := rfl
@[simp] theorem State.put_kbq (s : State) (b : Byte) : (s.put b).kbq = s.kbq := rfl
@[simp] theorem State.put_outLog (s : State) (b : Byte) : (s.put b).outLog = s.outLog ++ [b] := rfl
@[simp] theorem State.put_waiting (s : State) (b : Byte) : (s.put b).waiting = s.waiting := rfl
@[simp] theorem State.put_arrivals (s : State) (b : Byte) : (s.put b).arrivals = s.arrivals := rfl
@[simp] theorem State.put_image (s : State) (b : Byte) : (s.put b).image = s.image := rfl
@[simp] theorem State.put_params (s : State) (b : Byte) : (s.put b).params = s.params := rfl
@[simp] theorem State.put_reg (s : State) (b : Byte) (r : Reg) : (s.put b).reg r = s.reg r := rfl

/-! ### typed -/

@[simp] theorem State.typed_regs (s : State) (bs : List Byte) : (s.typed bs).regs = s.regs := rfl
@[simp] theorem State.typed_pc (s : State) (bs : List Byte) : (s.typed bs).pc = s.pc := rfl
@[simp] theorem State.typed_cc (s : State) (bs : List Byte) : (s.typed bs).cc = s.cc := rfl
@[simp] theorem State.typed_run (s : State) (bs : List Byte) : (s.typed bs).run = s.run := rfl
@[simp] theorem State.typed_haltCause (s : State) (bs : List Byte) : (s.typed bs).haltCause = s.haltCause := rfl
@[simp] theorem State.typed_mem (s : State) (bs : List Byte) : (s.typed bs).mem = s.mem := rfl
@[simp] theorem State.typed_kbq (s : State) (bs : List Byte) : (s.typed bs).kbq = s.kbq ++ bs := rfl
@[simp] theorem State.typed_outLog (s : State) (bs : List Byte) : (s.typed bs).outLog = s.outLog := rfl
@[simp] theorem State.typed_waiting (s : State) (bs : List Byte) : (s.typed bs).waiting = s.waiting := rfl
@[simp] theorem State.typed_arrivals (s : State) (bs : List Byte) : (s.typed bs).arrivals = s.arrivals := rfl
@[simp] theorem State.typed_image (s : State) (bs : List Byte) : (s.typed bs).image = s.image := rfl
@[simp] theorem State.typed_params (s : State) (bs : List Byte) : (s.typed bs).params = s.params := rfl
@[simp] theorem State.typed_reg (s : State) (bs : List Byte) (r : Reg) : (s.typed bs).reg r = s.reg r := rfl

/-! ### link -/

@[simp] theorem State.link_regs (s : State) : s.link.regs = s.regs.set .r7 s.pc := rfl
@[simp] theorem State.link_pc (s : State) : s.link.pc = s.pc := rfl
@[simp] theorem State.link_cc (s : State) : s.link.cc = s.cc := rfl
@[simp] theorem State.link_run (s : State) : s.link.run = s.run := rfl
@[simp] theorem State.link_haltCause (s : State) : s.link.haltCause = s.haltCause := rfl
@[simp] theorem State.link_mem (s : State) : s.link.mem = s.mem := rfl
@[simp] theorem State.link_kbq (s : State) : s.link.kbq = s.kbq := rfl
@[simp] theorem State.link_outLog (s : State) : s.link.outLog = s.outLog := rfl
@[simp] theorem State.link_waiting (s : State) : s.link.waiting = s.waiting := rfl
@[simp] theorem State.link_arrivals (s : State) : s.link.arrivals = s.arrivals := rfl
@[simp] theorem State.link_image (s : State) : s.link.image = s.image := rfl
@[simp] theorem State.link_params (s : State) : s.link.params = s.params := rfl

/-! ### halt -/

@[simp] theorem State.halt_regs (s : State) (c : HaltCause) : (s.halt c).regs = s.regs := rfl
@[simp] theorem State.halt_pc (s : State) (c : HaltCause) : (s.halt c).pc = s.pc := rfl
@[simp] theorem State.halt_cc (s : State) (c : HaltCause) : (s.halt c).cc = s.cc := rfl
@[simp] theorem State.halt_run (s : State) (c : HaltCause) : (s.halt c).run = .halted := rfl
@[simp] theorem State.halt_haltCause (s : State) (c : HaltCause) : (s.halt c).haltCause = c := rfl
@[simp] theorem State.halt_mem (s : State) (c : HaltCause) : (s.halt c).mem = s.mem := rfl
@[simp] theorem State.halt_kbq (s : State) (c : HaltCause) : (s.halt c).kbq = s.kbq := rfl
@[simp] theorem State.halt_outLog (s : State) (c : HaltCause) : (s.halt c).outLog = s.outLog := rfl
@[simp] theorem State.halt_waiting (s : State) (c : HaltCause) : (s.halt c).waiting = s.waiting := rfl
@[simp] theorem State.halt_arrivals (s : State) (c : HaltCause) : (s.halt c).arrivals = s.arrivals := rfl
@[simp] theorem State.halt_image (s : State) (c : HaltCause) : (s.halt c).image = s.image := rfl
@[simp] theorem State.halt_params (s : State) (c : HaltCause) : (s.halt c).params = s.params := rfl
@[simp] theorem State.halt_reg (s : State) (c : HaltCause) (r : Reg) : (s.halt c).reg r = s.reg r := rfl

/-! ### jumpTo -/

@[simp] theorem State.jumpTo_regs (s : State) (a : Word) : (s.jumpTo a).regs = s.regs := rfl
@[simp] theorem State.jumpTo_pc (s : State) (a : Word) : (s.jumpTo a).pc = a := rfl
@[simp] theorem State.jumpTo_cc (s : State) (a : Word) : (s.jumpTo a).cc = s.cc := rfl
@[simp] theorem State.jumpTo_run (s : State) (a : Word) : (s.jumpTo a).run = s.run := rfl
@[simp] theorem State.jumpTo_haltCause (s : State) (a : Word) : (s.jumpTo a).haltCause = s.haltCause := rfl
@[simp] theorem State.jumpTo_mem (s : State) (a : Word) : (s.jumpTo a).mem = s.mem := rfl
@[simp] theorem State.jumpTo_kbq (s : State) (a : Word) : (s.jumpTo a).kbq = s.kbq := rfl
@[simp] theorem State.jumpTo_outLog (s : State) (a : Word) : (s.jumpTo a).outLog = s.outLog := rfl
@[simp] theorem State.jumpTo_waiting (s : State) (a : Word) : (s.jumpTo a).waiting = s.waiting := rfl
@[simp] theorem State.jumpTo_arrivals (s : State) (a : Word) : (s.jumpTo a).arrivals = s.arrivals := rfl
@[simp] theorem State.jumpTo_image (s : State) (a : Word) : (s.jumpTo a).image = s.image := rfl
@[simp] theorem State.jumpTo_params (s : State) (a : Word) : (s.jumpTo a).params = s.params := rfl
@[simp] theorem State.jumpTo_reg (s : State) (a : Word) (r : Reg) : (s.jumpTo a).reg r = s.reg r := rfl

/-! ### the poll and MemRead: everything but memory and the queue stays -/

@[simp] theorem State.poll_regs (s : State) : s.poll.regs = s.regs := by unfold State.poll; split <;> rfl
@[simp] theorem State.poll_pc (s : State) : s.poll.pc = s.pc := by unfold State.poll; split <;> rfl
@[simp] theorem State.poll_cc (s : State) : s.poll.cc = s.cc := by unfold State.poll; split <;> rfl
@[simp] theorem State.poll_run (s : State) : s.poll.run = s.run := by unfold State.poll; split <;> rfl
@[simp] theorem State.poll_haltCause (s : State) : s.poll.haltCause = s.haltCause := by unfold State.poll; split <;> rfl
@[simp] theorem State.poll_outLog (s : State) : s.poll.outLog = s.outLog := by unfold State.poll; split <;> rfl
@[simp] theorem State.poll_waiting (s : State) : s.poll.waiting = s.waiting := by unfold State.poll; split <;> rfl
@[simp] theorem State.poll_arrivals (s : State) : s.poll.arrivals = s.arrivals := by unfold State.poll; split <;> rfl
@[simp] theorem State.poll_image (s : State) : s.poll.image = s.image := by unfold State.poll; split <;> rfl
@[simp] theorem State.poll_params (s : State) : s.poll.params = s.params := by unfold State.poll; split <;> rfl
@[simp] theorem State.poll_reg (s : State) (r : Reg) : s.poll.reg r = s.reg r := by simp [State.reg]

@[simp] theorem State.memRead_regs (s : State) (a : Word) : (s.memRead a).2.regs = s.regs := by
  unfold State.memRead; dsimp only; split <;> simp
@[simp] theorem State.memRead_pc (s : State) (a : Word) : (s.memRead a).2.pc = s.pc := by
  unfold State.memRead; dsimp only; split <;> simp
@[simp] theorem State.memRead_cc (s : State) (a : Word) : (s.memRead a).2.cc = s.cc := by
  unfold State.memRead; dsimp only; split <;> simp
@[simp] theorem State.memRead_run (s : State) (a : Word) : (s.memRead a).2.run = s.run := by
  unfold State.memRead; dsimp only; split <;> simp
@[simp] theorem State.memRead_haltCause (s : State) (a : Word) : (s.memRead a).2.haltCause = s.haltCause := by
  unfold State.memRead; dsimp only; split <;> simp
@[simp] theorem State.memRead_outLog (s : State) (a : Word) : (s.memRead a).2.outLog = s.outLog := by
  unfold State.memRead; dsimp only; split <;> simp
@[simp] theorem State.memRead_waiting (s : State) (a : Word) : (s.memRead a).2.waiting = s.waiting := by
  unfold State.memRead; dsimp only; split <;> simp
@[simp] theorem State.memRead_arrivals (s : State) (a : Word) : (s.memRead a).2.arrivals = s.arrivals := by
  unfold State.memRead; dsimp only; split <;> simp
@[simp] theorem State.memRead_image (s : State) (a : Word) : (s.memRead a).2.image = s.image := by
  unfold State.memRead; dsimp only; split <;> simp
@[simp] theorem State.memRead_params (s : State) (a : Word) : (s.memRead a).2.params = s.params := by
  unfold State.memRead; dsimp only; split <;> simp
@[simp] theorem State.memRead_reg (s : State) (a : Word) (r : Reg) : (s.memRead a).2.reg r = s.reg r := by simp [State.reg]

/-! ### the environment's turn: everything but the queue and the schedule stays -/

@[simp] theorem State.arrive_regs (s : State) : s.arrive.regs = s.regs := rfl
@[simp] theorem State.arrive_pc (s : State) : s.arrive.pc = s.pc := rfl
@[simp] theorem State.arrive_cc (s : State) : s.arrive.cc = s.cc := rfl
@[simp] theorem State.arrive_run (s : State) : s.arrive.run = s.run := rfl
@[simp] theorem State.arrive_haltCause (s : State) : s.arrive.haltCause = s.haltCause := rfl
@[simp] theorem State.arrive_mem (s : State) : s.arrive.mem = s.mem := rfl
@[simp] theorem State.arrive_outLog (s : State) : s.arrive.outLog = s.outLog := rfl
@[simp] theorem State.arrive_waiting (s : State) : s.arrive.waiting = s.waiting := rfl
@[simp] theorem State.arrive_image (s : State) : s.arrive.image = s.image := rfl
@[simp] theorem State.arrive_params (s : State) : s.arrive.params = s.params := rfl
@[simp] theorem State.arrive_reg (s : State) (r : Reg) : s.arrive.reg r = s.reg r := by simp [State.reg]
@[simp] theorem State.arrive_kbq (s : State) : s.arrive.kbq = s.kbq ++ s.arrivals.now := rfl
@[simp] theorem State.arrive_arrivals (s : State) : s.arrive.arrivals = s.arrivals.later := rfl

@[simp] theorem Arrivals.now_nil : (Arrivals.listed []).now = [] := rfl
@[simp] theorem Arrivals.now_cons (bs : List Byte) (rest : List (List Byte)) : (Arrivals.listed (bs :: rest)).now = bs := rfl
@[simp] theorem Arrivals.now_endless (schedule turn : Nat) :
    (Arrivals.endless schedule turn).now = Config.typing schedule turn := rfl
@[simp] theorem Arrivals.later_listed (entries : List (List Byte)) :
    (Arrivals.listed entries).later = .listed entries.tail := rfl
@[simp] theorem Arrivals.later_endless (schedule turn : Nat) :
    (Arrivals.endless schedule turn).later = .endless schedule (turn + 1) := rfl

/-! ### two states with the same fields are the same state -/

theorem State.eq_of_fields (s t : State) (regs : s.regs = t.regs) (pc : s.pc = t.pc) (cc : s.cc = t.cc)
    (run : s.run = t.run) (cause : s.haltCause = t.haltCause) (mem : s.mem = t.mem) (kbq : s.kbq = t.kbq)
    (log : s.outLog = t.outLog) (waiting : s.waiting = t.waiting) (arrivals : s.arrivals = t.arrivals)
    (image : s.image = t.image) (params : s.params = t.params) : s = t := by
  cases s
  cases t
  simp_all

/-- When the schedule is over, the environment's turn changes nothing. -/
theorem State.arrive_of_nothing (s : State) (h : s.arrivals = .listed []) : s.arrive = s := by
  apply State.eq_of_fields <;> simp [h]

end Sys2Proof.Machine
end

