-- ==== Sys2Proof/Laws/Memory.lean ====
section
/-! SUPPORT. The memory array: a read after a write, the cells a write leaves alone, and that every operation keeps the
canonical form (spec/20_memory.md R51, R52). -/

namespace Sys2Proof.Machine

/-- A cell with another address does not matter to a read. -/
theorem Memory.read_filter (m : Memory) (a b : Word) (h : b ≠ a) :
    Memory.read (m.filter (fun c => c.1 != a.toNat)) b = Memory.read m b := by
  induction m with
  | nil => rfl
  | cons c m ih =>
    have hab : a.toNat ≠ b.toNat := fun e => h (BitVec.eq_of_toNat_eq e.symm)
    by_cases hc : c.1 = a.toNat
    · simp [hc, Memory.read, hab, ih]
    · simp [hc, Memory.read, ih]

/-- A cell taken off the list reads as an unlisted one. -/
theorem Memory.read_filter_same (m : Memory) (a : Word) :
    Memory.read (m.filter (fun c => c.1 != a.toNat)) a = Config.unlistedWord := by
  induction m with
  | nil => rfl
  | cons c m ih =>
    by_cases hc : c.1 = a.toNat
    · simp [hc, ih]
    · simp [hc, Memory.read, ih]

theorem Memory.read_insertCell (m : Memory) (a b v : Word) (h : ∀ c ∈ m, c.1 ≠ a.toNat) :
    Memory.read (Memory.insertCell a.toNat v m) b = if b = a then v else Memory.read m b := by
  have hab : a.toNat = b.toNat ↔ b = a := ⟨fun e => BitVec.eq_of_toNat_eq e.symm, fun e => by rw [e]⟩
  induction m with
  | nil => simp [Memory.insertCell, Memory.read, hab]
  | cons c m ih =>
    have hc : c.1 ≠ a.toNat := h c (by simp)
    have ih := ih fun d hd => h d (by simp [hd])
    by_cases hlt : a.toNat < c.1
    · simp [Memory.insertCell, Memory.read, hlt, hab]
    · by_cases hb : c.1 = b.toNat
      · have : b ≠ a := fun e => hc (by rw [hb, e])
        rw [Memory.insertCell.eq_def]
        simp only [hlt, if_false]
        simp [Memory.read, hb, this]
      · simp [Memory.insertCell, Memory.read, hlt, hb, ih]

/-- A read after a write: the written cell holds the value, every other cell what it held. -/
@[simp] theorem Memory.read_write (m : Memory) (a b v : Word) :
    (m.write a v).read b = if b = a then v else m.read b := by
  unfold Memory.write
  by_cases hv : v = Config.unlistedWord
  · by_cases hb : b = a
    · subst hb; simp [hv, Memory.read_filter_same]
    · simp [hv, hb, Memory.read_filter]
  · simp only [hv, if_false]
    rw [Memory.read_insertCell _ _ _ _ (by simp)]
    by_cases hb : b = a
    · simp [hb]
    · simp [hb, Memory.read_filter]

theorem Memory.mem_insertCell (m : Memory) (a : Nat) (v : Word) (c : Nat × Word) :
    c ∈ Memory.insertCell a v m ↔ c = (a, v) ∨ c ∈ m := by
  induction m with
  | nil => simp [Memory.insertCell]
  | cons d m ih =>
    by_cases h : a < d.1
    · simp [Memory.insertCell, h]
    · simp [Memory.insertCell, h, ih]; tauto

theorem Memory.sorted_insertCell (m : Memory) (a : Nat) (v : Word) (h : ∀ c ∈ m, c.1 ≠ a)
    (hm : m.Pairwise (fun c d => c.1 < d.1)) : (Memory.insertCell a v m).Pairwise (fun c d => c.1 < d.1) := by
  induction m with
  | nil => simp [Memory.insertCell]
  | cons d m ih =>
    rw [List.pairwise_cons] at hm
    by_cases hlt : a < d.1
    · simp only [Memory.insertCell, hlt, if_true, List.pairwise_cons]
      exact ⟨fun c hc => by
        rcases List.mem_cons.1 hc with rfl | hc
        · exact hlt
        · exact lt_trans hlt (hm.1 c hc), hm.1, hm.2⟩
    · simp only [Memory.insertCell, hlt, if_false, List.pairwise_cons]
      refine ⟨fun c hc => ?_, ih (fun c hc => h c (by simp [hc])) hm.2⟩
      rcases (Memory.mem_insertCell m a v c).1 hc with rfl | hc
      · have : d.1 ≠ a := h d (by simp)
        show d.1 < a
        omega
      · exact hm.1 c hc

/-- A write keeps the canonical form. -/
theorem Memory.wf_write (m : Memory) (a v : Word) (h : m.wf) : (m.write a v).wf := by
  have hs := h.1.filter (fun c => c.1 != a.toNat)
  have hm : ∀ c ∈ m.filter (fun c => c.1 != a.toNat), c.1 < 65536 ∧ c.2 ≠ Config.unlistedWord :=
    fun c hc => h.2 c (List.mem_filter.1 hc).1
  unfold Memory.write
  by_cases hv : v = Config.unlistedWord
  · simp only [hv, if_true]
    exact ⟨hs, hm⟩
  · simp only [hv, if_false]
    refine ⟨Memory.sorted_insertCell _ _ _ (by simp) hs, fun c hc => ?_⟩
    rcases (Memory.mem_insertCell _ _ _ _).1 hc with rfl | hc
    · exact ⟨a.isLt, hv⟩
    · exact hm c hc

/-- The empty list is canonical. -/
theorem Memory.wf_nil : Memory.wf [] := by decide

end Sys2Proof.Machine
end

