-- ==== Sys2Proof/Laws/Read.lean ====
section
/-! SUPPORT. What one poll, one MemRead and one fetch can do (spec/20_memory.md R51, spec/40_fetch_decode.md R111). -/

namespace Sys2Proof.Machine

/-- A read of any address but KBSR_ADDR returns the stored cell and changes nothing. -/
theorem State.memRead_plain (s : State) (a : Word) (h : a ≠ s.params.kbsrAddr) : s.memRead a = (s.mem.read a, s) := by
  simp [State.memRead, h]

/-- A read of KBSR_ADDR polls first. -/
theorem State.memRead_kbsr (s : State) :
    s.memRead s.params.kbsrAddr = (s.poll.mem.read s.params.kbsrAddr, s.poll) := by simp [State.memRead]

/-- The state after a read is the state before it or the state after a poll. -/
theorem State.memRead_cases (s : State) (a : Word) :
    (a ≠ s.params.kbsrAddr ∧ (s.memRead a).2 = s) ∨ (a = s.params.kbsrAddr ∧ (s.memRead a).2 = s.poll) := by
  by_cases h : a = s.params.kbsrAddr
  · right; exact ⟨h, by simp [State.memRead, h]⟩
  · left; exact ⟨h, by simp [State.memRead, h]⟩

/-- The word read is the one the cell holds after the read. -/
theorem State.memRead_value (s : State) (a : Word) : (s.memRead a).1 = (s.memRead a).2.mem.read a := rfl

/-- A poll takes the head of the queue, if there is one. -/
@[simp] theorem State.poll_kbq (s : State) : s.poll.kbq = s.kbq.tail := by
  unfold State.poll; cases s.kbq <;> simp

/-- A poll changes no cell but the two device cells. -/
theorem State.poll_cells (s : State) (a : Word) (h1 : a ≠ s.params.kbsrAddr) (h2 : a ≠ s.params.kbdrAddr) :
    s.poll.mem.read a = s.mem.read a := by
  unfold State.poll; split <;> simp [h1, h2]

/-- A poll that finds nothing clears KBSR and changes no other cell. -/
theorem State.poll_miss (s : State) (h : s.kbq = []) (a : Word) :
    s.poll.mem.read a = if a = s.params.kbsrAddr then 0 else s.mem.read a := by
  simp [State.poll, h]

/-- A poll that finds a character sets KBSR to 0x8000 and latches the character in KBDR. -/
theorem State.poll_hit (s : State) (c : Byte) (rest : List Byte) (h : s.kbq = c :: rest) (a : Word) :
    s.poll.mem.read a =
      if a = s.params.kbdrAddr then zext c else if a = s.params.kbsrAddr then 0x8000 else s.mem.read a := by
  simp [State.poll, h]

theorem State.poll_wf (s : State) (h : s.mem.wf) : s.poll.mem.wf := by
  unfold State.poll
  split
  · rename_i c rest _
    show Memory.wf ((s.mem.write s.params.kbsrAddr 0x8000).write s.params.kbdrAddr (zext c))
    exact Memory.wf_write _ _ _ (Memory.wf_write _ _ _ h)
  · show Memory.wf (s.mem.write s.params.kbsrAddr 0x0000)
    exact Memory.wf_write _ _ _ h

/-- A read keeps the canonical form of memory. -/
theorem State.memRead_wf (s : State) (a : Word) (h : s.mem.wf) : (s.memRead a).2.mem.wf := by
  rcases s.memRead_cases a with ⟨-, e⟩ | ⟨-, e⟩ <;> rw [e]
  · exact h
  · exact s.poll_wf h

/-- A read changes no cell but the two device cells. -/
theorem State.memRead_cells (s : State) (a b : Word) (h1 : b ≠ s.params.kbsrAddr) (h2 : b ≠ s.params.kbdrAddr) :
    (s.memRead a).2.mem.read b = s.mem.read b := by
  rcases s.memRead_cases a with ⟨-, e⟩ | ⟨-, e⟩ <;> rw [e]
  exact s.poll_cells b h1 h2

/-- A read takes at most the head of the queue. -/
theorem State.memRead_kbq (s : State) (a : Word) : (s.memRead a).2.kbq = s.kbq ∨ (s.memRead a).2.kbq = s.kbq.tail := by
  rcases s.memRead_cases a with ⟨-, e⟩ | ⟨-, e⟩ <;> rw [e] <;> simp

/-- A read is of KBSR_ADDR, with nothing pending: the word is 0. -/
theorem State.memRead_kbsr_miss (s : State) (h : s.kbq = []) : (s.memRead s.params.kbsrAddr).1 = 0 := by
  simp [State.memRead_kbsr, s.poll_miss h]

/-- The frame of a read as the statements use it. -/
theorem State.memRead_afterReads (s : State) (a : Word) : AfterReads s (s.memRead a).2 (s.memRead a).2 [a] := by
  refine ⟨fun _ => rfl, rfl, by simp, fun h => ?_, fun b hb => ?_⟩
  · have e := s.memRead_plain a (by simpa using Ne.symm (by simpa using h : s.params.kbsrAddr ≠ a))
    simp [e, OutsideKept, CellsKept, ConsoleKept]
  · simp at hb
    exact s.memRead_cells a b hb.1 hb.2

@[simp] theorem State.fetch_pc (s : State) : s.fetch.2.pc = s.pc + 1 := by simp [State.fetch]
@[simp] theorem State.fetch_regs (s : State) : s.fetch.2.regs = s.regs := by simp [State.fetch]
@[simp] theorem State.fetch_reg (s : State) (r : Reg) : s.fetch.2.reg r = s.reg r := by simp [State.reg]
@[simp] theorem State.fetch_cc (s : State) : s.fetch.2.cc = s.cc := by simp [State.fetch]
@[simp] theorem State.fetch_run (s : State) : s.fetch.2.run = s.run := by simp [State.fetch]
@[simp] theorem State.fetch_haltCause (s : State) : s.fetch.2.haltCause = s.haltCause := by simp [State.fetch]
@[simp] theorem State.fetch_outLog (s : State) : s.fetch.2.outLog = s.outLog := by simp [State.fetch]
@[simp] theorem State.fetch_waiting (s : State) : s.fetch.2.waiting = s.waiting := by simp [State.fetch]
@[simp] theorem State.fetch_arrivals (s : State) : s.fetch.2.arrivals = s.arrivals := by simp [State.fetch]
@[simp] theorem State.fetch_image (s : State) : s.fetch.2.image = s.image := by simp [State.fetch]
@[simp] theorem State.fetch_params (s : State) : s.fetch.2.params = s.params := by simp [State.fetch]

/-- The memory and the queue after a fetch are those after the read. -/
theorem State.fetch_mem (s : State) : s.fetch.2.mem = (s.memRead s.pc).2.mem := rfl
theorem State.fetch_kbq (s : State) : s.fetch.2.kbq = (s.memRead s.pc).2.kbq := rfl

end Sys2Proof.Machine
end

