-- ==== Sys2Proof/Laws/Boot.lean ====
section
/-! SUPPORT. The boot agent's stores (spec/70_reset_and_hazards.md R222, R223). -/

namespace Sys2Proof.Machine

theorem wordOfBytes_imageBytes (w : Word) : wordOfBytes (highByte w) (lowByte w) = w := by
  apply BitVec.eq_of_getLsbD_eq
  intro i hi
  simp only [wordOfBytes, highByte, lowByte, BitVec.getLsbD_append, BitVec.getLsbD_extractLsb']
  by_cases h : i < 8
  · simp [h]
  · have h1 : i - 8 < 8 := by omega
    have h2 : 8 + (i - 8) = i := by omega
    simp [h, h1, h2]

/-- The words of an image's body are the words it was written from. -/
theorem imageWords_imageBytes (ws : List Word) : imageWords (ws.flatMap imageBytes) = ws := by
  induction ws with
  | nil => rfl
  | cons w ws ih => simp [imageBytes, imageWords, wordOfBytes_imageBytes, ih]

/-- A last odd byte is no word. -/
theorem imageWords_odd (ws : List Word) (b : Byte) : imageWords (ws.flatMap imageBytes ++ [b]) = ws := by
  induction ws with
  | nil => rfl
  | cons w ws ih => simp [imageBytes, imageWords, wordOfBytes_imageBytes, ih]

/-- Which cell holds what after the words are stored. -/
theorem storeWords_read (ws : List Word) (a : Nat) (m : Memory) (b : Word) :
    (storeWords a ws m).read b =
      if h : a ≤ b.toNat ∧ b.toNat < a + ws.length then ws[b.toNat - a]'(by omega) else m.read b := by
  induction ws generalizing a m with
  | nil =>
    have : ¬(a ≤ b.toNat ∧ b.toNat < a) := by omega
    simp [storeWords, this]
  | cons w ws ih =>
    by_cases ha : a < 65536
    · simp only [storeWords, ha, if_true, ih]
      by_cases hb : b.toNat = a
      · have e : b = BitVec.ofNat 16 a := by
          apply BitVec.eq_of_toNat_eq
          simp [hb]
          omega
        have h1 : ¬(a + 1 ≤ b.toNat ∧ b.toNat < a + 1 + ws.length) := by omega
        have h2 : a ≤ b.toNat ∧ b.toNat < a + (w :: ws).length := by simp; omega
        rw [dif_neg h1, dif_pos h2]
        subst e
        simp only [Memory.read_write, if_true, hb, Nat.sub_self, List.getElem_cons_zero]
      · have e : b ≠ BitVec.ofNat 16 a := fun e => hb (by rw [e]; simp; omega)
        by_cases h1 : a + 1 ≤ b.toNat ∧ b.toNat < a + 1 + ws.length
        · have h2 : a ≤ b.toNat ∧ b.toNat < a + (w :: ws).length := by simp; omega
          rw [dif_pos h1, dif_pos h2, List.getElem_cons, dif_neg (by omega)]
          simp only [Nat.sub_sub]
        · have h2 : ¬(a ≤ b.toNat ∧ b.toNat < a + (w :: ws).length) := by simp; omega
          rw [dif_neg h1, dif_neg h2, Memory.read_write, if_neg e]
    · have := b.isLt
      have h2 : ¬(a ≤ b.toNat ∧ b.toNat < a + (w :: ws).length) := by omega
      rw [dif_neg h2]
      simp [storeWords, ha]

theorem storeWords_wf (ws : List Word) (a : Nat) (m : Memory) (h : m.wf) : (storeWords a ws m).wf := by
  induction ws generalizing a m with
  | nil => exact h
  | cons w ws ih =>
    simp only [storeWords]
    split
    · exact ih _ _ (Memory.wf_write _ _ _ h)
    · exact h

/-- A boot either changes nothing, or sets PC, stores the image's words and starts the core. -/
theorem State.boot_cases (s : State) :
    s.boot = s ∨ ∃ hi lo body, s.image = some (hi :: lo :: body) ∧
      s.boot = { s with
        pc := wordOfBytes hi lo
        mem := storeWords (wordOfBytes hi lo).toNat (imageWords body) s.mem
        run := .running } := by
  unfold State.boot
  split
  · right; exact ⟨_, _, _, ‹_›, rfl⟩
  all_goals exact .inl rfl

end Sys2Proof.Machine
end

