-- ==== Sys2Proof/Laws/PerInstr.lean ====
section
/-! SUPPORT. A family of statements made per instruction: the encoder's word lies in the instruction's row of the opcode
table, mask and pattern (spec/opcode_table.json, spec/30_encoding.md R82, R91). -/

namespace Sys2Proof.Laws.EncodeRow

/-- The canonical word of `i` matches the row of `i`. -/
def Statement (i : Instr) : Prop := ∀ r, opcodeTable[i.tableIndex]? = some r → encode i &&& r.mask = r.pattern

/-- A word made of the row's pattern and fields that lie outside the row's mask. -/
theorem row_of_fields (pattern mask fields : Word) (hp : pattern &&& mask = pattern) (hf : fields &&& mask = 0) :
    (pattern ||| fields) &&& mask = pattern := by
  rw [BitVec.and_comm, BitVec.and_or_distrib_left, BitVec.and_comm, hp, BitVec.and_comm mask, hf]
  exact BitVec.or_zero

/-- A field lies outside a mask that is 0 at its bits. -/
theorem place_outside (n lo : Nat) (b : BitVec n) (mask : Word) (h : ∀ k, k < n → mask.getLsbD (lo + k) = false) :
    place b lo &&& mask = 0 := by
  apply BitVec.eq_of_getLsbD_eq
  intro i hi
  simp only [place, BitVec.getLsbD_and, BitVec.getLsbD_shiftLeft, BitVec.getLsbD_setWidth]
  by_cases hl : i < lo
  · simp [hl]
  · by_cases hn : i - lo < n
    · have := h (i - lo) hn
      rw [Nat.add_sub_cancel' (by omega)] at this
      simp [this]
    · simp [BitVec.getLsbD_of_ge b (i - lo) (by omega)]

theorem or_outside (x y mask : Word) (hx : x &&& mask = 0) (hy : y &&& mask = 0) : (x ||| y) &&& mask = 0 := by
  rw [BitVec.and_comm, BitVec.and_or_distrib_left, BitVec.and_comm, hx, BitVec.and_comm mask, hy]
  exact BitVec.or_zero

theorem br (n z p : Bool) (off : BitVec 9) : Statement (.br n z p off) := by
  intro r h
  cases h
  exact or_outside _ _ _ (or_outside _ _ _ (or_outside _ _ _ (place_outside _ _ _ _ (by decide)) (place_outside _ _ _ _ (by decide))) (place_outside _ _ _ _ (by decide))) (place_outside _ _ _ _ (by decide))

theorem addReg (dr sr1 sr2 : Reg) : Statement (.addReg dr sr1 sr2) := by
  intro r h
  cases h
  simp only [encode, BitVec.or_assoc]
  exact row_of_fields _ _ _ (by decide) (or_outside _ _ _ (place_outside _ _ _ _ (by decide)) (or_outside _ _ _ (place_outside _ _ _ _ (by decide)) (place_outside _ _ _ _ (by decide))))

theorem addImm (dr sr1 : Reg) (imm : BitVec 5) : Statement (.addImm dr sr1 imm) := by
  intro r h
  cases h
  simp only [encode, BitVec.or_assoc]
  exact row_of_fields _ _ _ (by decide) (or_outside _ _ _ (place_outside _ _ _ _ (by decide)) (or_outside _ _ _ (place_outside _ _ _ _ (by decide)) (place_outside _ _ _ _ (by decide))))

theorem ld (dr : Reg) (off : BitVec 9) : Statement (.ld dr off) := by
  intro r h
  cases h
  simp only [encode, BitVec.or_assoc]
  exact row_of_fields _ _ _ (by decide) (or_outside _ _ _ (place_outside _ _ _ _ (by decide)) (place_outside _ _ _ _ (by decide)))

theorem st (sr : Reg) (off : BitVec 9) : Statement (.st sr off) := by
  intro r h
  cases h
  simp only [encode, BitVec.or_assoc]
  exact row_of_fields _ _ _ (by decide) (or_outside _ _ _ (place_outside _ _ _ _ (by decide)) (place_outside _ _ _ _ (by decide)))

theorem jsr (off : BitVec 11) : Statement (.jsr off) := by
  intro r h
  cases h
  exact row_of_fields _ _ _ (by decide) (place_outside _ _ _ _ (by decide))

theorem jsrr (base : Reg) : Statement (.jsrr base) := by
  intro r h
  cases h
  exact row_of_fields _ _ _ (by decide) (place_outside _ _ _ _ (by decide))

theorem andReg (dr sr1 sr2 : Reg) : Statement (.andReg dr sr1 sr2) := by
  intro r h
  cases h
  simp only [encode, BitVec.or_assoc]
  exact row_of_fields _ _ _ (by decide) (or_outside _ _ _ (place_outside _ _ _ _ (by decide)) (or_outside _ _ _ (place_outside _ _ _ _ (by decide)) (place_outside _ _ _ _ (by decide))))

theorem andImm (dr sr1 : Reg) (imm : BitVec 5) : Statement (.andImm dr sr1 imm) := by
  intro r h
  cases h
  simp only [encode, BitVec.or_assoc]
  exact row_of_fields _ _ _ (by decide) (or_outside _ _ _ (place_outside _ _ _ _ (by decide)) (or_outside _ _ _ (place_outside _ _ _ _ (by decide)) (place_outside _ _ _ _ (by decide))))

theorem ldr (dr base : Reg) (off : BitVec 6) : Statement (.ldr dr base off) := by
  intro r h
  cases h
  simp only [encode, BitVec.or_assoc]
  exact row_of_fields _ _ _ (by decide) (or_outside _ _ _ (place_outside _ _ _ _ (by decide)) (or_outside _ _ _ (place_outside _ _ _ _ (by decide)) (place_outside _ _ _ _ (by decide))))

theorem str (sr base : Reg) (off : BitVec 6) : Statement (.str sr base off) := by
  intro r h
  cases h
  simp only [encode, BitVec.or_assoc]
  exact row_of_fields _ _ _ (by decide) (or_outside _ _ _ (place_outside _ _ _ _ (by decide)) (or_outside _ _ _ (place_outside _ _ _ _ (by decide)) (place_outside _ _ _ _ (by decide))))

theorem rti : Statement .rti := by
  intro r h
  cases h
  decide

theorem not (dr sr : Reg) : Statement (.not dr sr) := by
  intro r h
  cases h
  have e : encode (.not dr sr) = 0x9000 ||| (0x003F ||| (place dr.toField 9 ||| place sr.toField 6)) := by
    simp only [encode, ← BitVec.or_assoc]
    rfl
  rw [e]
  exact row_of_fields _ _ _ (by decide) (or_outside _ _ _ (by decide) (or_outside _ _ _ (place_outside _ _ _ _ (by decide)) (place_outside _ _ _ _ (by decide))))

theorem ldi (dr : Reg) (off : BitVec 9) : Statement (.ldi dr off) := by
  intro r h
  cases h
  simp only [encode, BitVec.or_assoc]
  exact row_of_fields _ _ _ (by decide) (or_outside _ _ _ (place_outside _ _ _ _ (by decide)) (place_outside _ _ _ _ (by decide)))

theorem sti (sr : Reg) (off : BitVec 9) : Statement (.sti sr off) := by
  intro r h
  cases h
  simp only [encode, BitVec.or_assoc]
  exact row_of_fields _ _ _ (by decide) (or_outside _ _ _ (place_outside _ _ _ _ (by decide)) (place_outside _ _ _ _ (by decide)))

theorem jmp (base : Reg) : Statement (.jmp base) := by
  intro r h
  cases h
  exact row_of_fields _ _ _ (by decide) (place_outside _ _ _ _ (by decide))

theorem res : Statement .res := by
  intro r h
  cases h
  decide

theorem lea (dr : Reg) (off : BitVec 9) : Statement (.lea dr off) := by
  intro r h
  cases h
  simp only [encode, BitVec.or_assoc]
  exact row_of_fields _ _ _ (by decide) (or_outside _ _ _ (place_outside _ _ _ _ (by decide)) (place_outside _ _ _ _ (by decide)))

theorem trapGetc : Statement .trapGetc := by
  intro r h
  cases h
  decide

theorem trapOut : Statement .trapOut := by
  intro r h
  cases h
  decide

theorem trapPuts : Statement .trapPuts := by
  intro r h
  cases h
  decide

theorem trapIn : Statement .trapIn := by
  intro r h
  cases h
  decide

theorem trapPutsp : Statement .trapPutsp := by
  intro r h
  cases h
  decide

theorem trapHalt : Statement .trapHalt := by
  intro r h
  cases h
  decide

theorem trap (vector : BitVec 8) : Statement (.trap vector) := by
  intro r h
  cases h
  exact row_of_fields _ _ _ (by decide) (place_outside _ _ _ _ (by decide))

end Sys2Proof.Laws.EncodeRow
end

