-- ==== Sys2Proof/Laws/Registers.lean ====
section
/-! SUPPORT. The register file: a read after a write, and the numbers of the registers (spec/10_state.md R20). -/

namespace Sys2Proof.Machine

@[simp] theorem Regs.get_set (x : Regs) (i j : Reg) (v : Word) : (x.set i v).get j = if j = i then v else x.get j := by
  cases i <;> cases j <;> rfl

@[simp] theorem State.reg_setReg (s : State) (i j : Reg) (v : Word) :
    (s.setReg i v).reg j = if j = i then v else s.reg j := Regs.get_set s.regs i j v

@[simp] theorem State.reg_writeResult (s : State) (i j : Reg) (v : Word) :
    (s.writeResult i v).reg j = if j = i then v else s.reg j := Regs.get_set s.regs i j v

@[simp] theorem State.reg_link (s : State) (j : Reg) : s.link.reg j = if j = .r7 then s.pc else s.reg j :=
  Regs.get_set s.regs .r7 j s.pc

end Sys2Proof.Machine

namespace Sys2Proof

@[simp] theorem Reg.ofField_toField (r : Reg) : Reg.ofField r.toField = r := by cases r <;> rfl

@[simp] theorem Reg.toField_ofField (b : BitVec 3) : (Reg.ofField b).toField = b := by revert b; decide

end Sys2Proof
end

