-- ==== Sys2Proof/Laws/Strings.lean ====
section
/-! SUPPORT. The string services' loops (spec/44_trap.md R163, R165): what they leave alone, that they are the spec's loops,
and that the reads `stringFuel` allows are enough for every string. -/

namespace Sys2Proof.Machine

/-- What a string loop leaves alone: all but the log, the queue and the two device cells. -/
structure StringFrame (s t : State) : Prop where
  regs : t.regs = s.regs
  pc : t.pc = s.pc
  cc : t.cc = s.cc
  run : t.run = s.run
  cause : t.haltCause = s.haltCause
  waiting : t.waiting = s.waiting
  arrivals : t.arrivals = s.arrivals
  image : t.image = s.image
  params : t.params = s.params
  cells : CellsKept s t [s.params.kbsrAddr, s.params.kbdrAddr]
  log : ∃ bytes, t.outLog = s.outLog ++ bytes
  queue : ∃ taken, s.kbq = taken ++ t.kbq
  wf : s.mem.wf → t.mem.wf

theorem StringFrame.trans {s t u : State} (h : StringFrame s t) (g : StringFrame t u) : StringFrame s u where
  regs := g.regs.trans h.regs
  pc := g.pc.trans h.pc
  cc := g.cc.trans h.cc
  run := g.run.trans h.run
  cause := g.cause.trans h.cause
  waiting := g.waiting.trans h.waiting
  arrivals := g.arrivals.trans h.arrivals
  image := g.image.trans h.image
  params := g.params.trans h.params
  cells := fun a ha => (g.cells a (by rw [h.params]; exact ha)).trans (h.cells a ha)
  log := by
    obtain ⟨b, hb⟩ := h.log
    obtain ⟨c, hc⟩ := g.log
    exact ⟨b ++ c, by rw [hc, hb, List.append_assoc]⟩
  queue := by
    obtain ⟨b, hb⟩ := h.queue
    obtain ⟨c, hc⟩ := g.queue
    exact ⟨b ++ c, by rw [hb, hc, List.append_assoc]⟩
  wf := fun w => g.wf (h.wf w)

theorem StringFrame.read (s : State) (a : Word) : StringFrame s (s.memRead a).2 where
  regs := by simp
  pc := by simp
  cc := by simp
  run := by simp
  cause := by simp
  waiting := by simp
  arrivals := by simp
  image := by simp
  params := by simp
  cells := fun b hb => by
    simp at hb
    exact s.memRead_cells a b hb.1 hb.2
  log := ⟨[], by simp⟩
  queue := by
    rcases s.memRead_kbq a with h | h <;> rw [h]
    · exact ⟨[], by simp⟩
    · exact ⟨s.kbq.take 1, by cases s.kbq <;> simp⟩
  wf := s.memRead_wf a

theorem StringFrame.put (s : State) (b : Byte) : StringFrame s (s.put b) where
  regs := rfl
  pc := rfl
  cc := rfl
  run := rfl
  cause := rfl
  waiting := rfl
  arrivals := rfl
  image := rfl
  params := rfl
  cells := fun _ _ => rfl
  log := ⟨[b], rfl⟩
  queue := ⟨[], rfl⟩
  wf := id

theorem putsLoop_frame {n : Nat} {p : Word} {s t : State} (h : putsLoop n p s = some t) : StringFrame s t := by
  induction n generalizing p s with
  | zero => simp [putsLoop] at h
  | succ n ih =>
    simp only [putsLoop] at h
    split at h
    · cases h; exact .read s p
    · exact (StringFrame.read s p).trans ((StringFrame.put _ _).trans (ih h))

theorem putspLoop_frame {n : Nat} {p : Word} {s t : State} (h : putspLoop n p s = some t) : StringFrame s t := by
  induction n generalizing p s with
  | zero => simp [putspLoop] at h
  | succ n ih =>
    simp only [putspLoop] at h
    split at h
    · cases h; exact .read s p
    · split at h
      · cases h; exact (StringFrame.read s p).trans (.put _ _)
      · exact (StringFrame.read s p).trans ((StringFrame.put _ _).trans ((StringFrame.put _ _).trans (ih h)))

/-- The loop with its read count is R163's loop. -/
theorem putsLoop_run {n : Nat} {p : Word} {s t : State} (h : putsLoop n p s = some t) : PutsRun s p t := by
  induction n generalizing p s with
  | zero => simp [putsLoop] at h
  | succ n ih =>
    simp only [putsLoop] at h
    split at h
    · cases h; exact .stop s p ‹_›
    · exact .char s t p ‹_› (ih h)

/-- The loop with its read count is R165's loop. -/
theorem putspLoop_run {n : Nat} {p : Word} {s t : State} (h : putspLoop n p s = some t) : PutspRun s p t := by
  induction n generalizing p s with
  | zero => simp [putspLoop] at h
  | succ n ih =>
    simp only [putspLoop] at h
    split at h
    · cases h; exact .stopLow s p ‹_›
    · split at h
      · cases h; exact .stopHigh s p ‹_› ‹_›
      · exact .chars s t p ‹_› ‹_› (ih h)

/-- How many addresses lie before KBSR_ADDR on the way up from `p`, wrapping at the top of memory. -/
def distToKbsr (s : State) (p : Word) : Nat := (s.params.kbsrAddr - p).toNat

theorem distToKbsr_zero {s : State} {p : Word} : distToKbsr s p = 0 ↔ p = s.params.kbsrAddr := by
  unfold distToKbsr
  constructor
  · intro h; bv_omega
  · intro h; simp [h]

theorem distToKbsr_next {s : State} {p : Word} (h : p ≠ s.params.kbsrAddr) :
    distToKbsr s (p + 1) + 1 = distToKbsr s p := by
  unfold distToKbsr
  generalize s.params.kbsrAddr = k at h
  bv_omega

theorem distToKbsr_lt (s : State) (p : Word) : distToKbsr s p < 65536 := (s.params.kbsrAddr - p).isLt

/-- PUTS makes at most this many reads: each pass over the addresses takes a character or ends. -/
theorem putsLoop_ends (n : Nat) (p : Word) (s : State) (h : 65536 * s.kbq.length + distToKbsr s p < n) :
    ∃ t, putsLoop n p s = some t := by
  induction n generalizing p s with
  | zero => omega
  | succ n ih =>
    simp only [putsLoop]
    split
    · exact ⟨_, rfl⟩
    · rename_i hw
      apply ih
      by_cases hp : p = s.params.kbsrAddr
      · have hq : s.kbq ≠ [] := fun e => hw (by rw [hp]; exact s.memRead_kbsr_miss e)
        have hk : (s.memRead p).2.kbq = s.kbq.tail := by rw [hp, s.memRead_kbsr]; simp
        have hl : s.kbq.length = s.kbq.tail.length + 1 := by cases h : s.kbq <;> simp_all
        have := distToKbsr_lt ((s.memRead p).2.put (lowByte (s.memRead p).1)) (p + 1)
        simp only [State.put_kbq, hk]
        omega
      · have e : (s.memRead p).2 = s := by rw [s.memRead_plain p hp]
        have := distToKbsr_next hp
        simp only [State.put_kbq, e]
        have d : distToKbsr (s.put (lowByte (s.memRead p).1)) (p + 1) = distToKbsr s (p + 1) := rfl
        omega

theorem lowByte_ready : lowByte 0x8000 = 0 := by decide

theorem highByte_zext (c : Byte) : highByte (zext c) = 0 := by
  unfold highByte zext
  ext i
  simp

/-- A word read at KBSR_ADDR ends a packed string: one of its two bytes is zero. -/
theorem State.memRead_kbsr_endsPacked (s : State) :
    lowByte (s.memRead s.params.kbsrAddr).1 = 0 ∨ highByte (s.memRead s.params.kbsrAddr).1 = 0 := by
  rw [s.memRead_kbsr]
  cases h : s.kbq with
  | nil => simp [s.poll_miss h, lowByte]
  | cons c rest =>
    by_cases e : s.params.kbsrAddr = s.params.kbdrAddr
    · right; simp [s.poll_hit c rest h, e, highByte_zext]
    · left
      simp only [s.poll_hit c rest h, e, if_false, if_true]
      exact lowByte_ready

/-- PUTSP ends at KBSR_ADDR at the latest. -/
theorem putspLoop_ends (n : Nat) (p : Word) (s : State) (h : distToKbsr s p < n) : ∃ t, putspLoop n p s = some t := by
  induction n generalizing p s with
  | zero => omega
  | succ n ih =>
    simp only [putspLoop]
    split
    · exact ⟨_, rfl⟩
    · split
      · exact ⟨_, rfl⟩
      · rename_i hlo hhi
        have hp : p ≠ s.params.kbsrAddr := fun e => by
          rcases s.memRead_kbsr_endsPacked with z | z
          · exact hlo (e ▸ z)
          · exact hhi (e ▸ z)
        apply ih
        have := distToKbsr_next hp
        have d : distToKbsr (((s.memRead p).2.put (lowByte (s.memRead p).1)).put (highByte (s.memRead p).1)) (p + 1)
            = distToKbsr s (p + 1) := by simp [distToKbsr]
        omega

/-- PUTS completes: there is a state its loop ends in. -/
theorem execTrapPuts_next (s : State) :
    ∃ t, execTrapPuts s = .next t ∧ putsLoop (stringFuel s) (s.link.reg .r0) s.link = some t := by
  obtain ⟨t, ht⟩ := putsLoop_ends (stringFuel s) (s.link.reg .r0) s.link (by
    have := distToKbsr_lt s.link (s.link.reg .r0)
    simp only [State.link_kbq, stringFuel]
    omega)
  exact ⟨t, by rw [execTrapPuts, ht]; rfl, ht⟩

/-- PUTSP completes: there is a state its loop ends in. -/
theorem execTrapPutsp_next (s : State) :
    ∃ t, execTrapPutsp s = .next t ∧ putspLoop (stringFuel s) (s.link.reg .r0) s.link = some t := by
  obtain ⟨t, ht⟩ := putspLoop_ends (stringFuel s) (s.link.reg .r0) s.link (by
    have := distToKbsr_lt s.link (s.link.reg .r0)
    simp only [stringFuel]
    omega)
  exact ⟨t, by rw [execTrapPutsp, ht]; rfl, ht⟩

end Sys2Proof.Machine
end

