-- ==== Sys2Proof/Laws/Step.lean ====
section
/-! SUPPORT. What one step can do, case by case of the run state and the wait (spec/40_fetch_decode.md R110, R115,
spec/44_trap.md R169), and what the end of a wait does. -/

namespace Sys2Proof.Machine

theorem step_idle (s : State) (h : s.run = .idle) : step s = .next s.boot := by simp [step, h]

theorem step_halted (s : State) (h : s.run = .halted) : step s = .next s := by simp [step, h]

theorem step_waiting (s : State) (service : InputService) (h : s.run = .running) (w : s.waiting = some service) :
    step s = .next (s.arrive.finishInput service) := by simp [step, h, w]

theorem step_running (s : State) (h : s.run = .running) (w : s.waiting = none) : step s = s.arrive.cycle := by
  simp [step, h, w]

/-- A ready core does one instruction cycle. -/
theorem step_ready (s : State) (h : s.ready) : step s = exec (decode s.fetch.1) s.fetch.2 := by
  rw [step_running s h.1 h.2.1, s.arrive_of_nothing h.2.2, State.cycle]

/-- Everything a step can do. -/
theorem step_cases {s t : State} (h : step s = .next t) :
    (s.run = .idle ∧ t = s.boot) ∨ (s.run = .halted ∧ t = s) ∨
    (∃ service, s.run = .running ∧ s.waiting = some service ∧ t = s.arrive.finishInput service) ∨
    (s.run = .running ∧ s.waiting = none ∧ exec (decode s.arrive.fetch.1) s.arrive.fetch.2 = .next t) := by
  cases hr : s.run with
  | idle => rw [step_idle s hr] at h; cases h; simp
  | halted => rw [step_halted s hr] at h; cases h; simp
  | running =>
    cases hw : s.waiting with
    | none => rw [step_running s hr hw] at h; exact .inr (.inr (.inr ⟨rfl, rfl, h⟩))
    | some k => rw [step_waiting s k hr hw] at h; cases h; exact .inr (.inr (.inl ⟨k, rfl, rfl, rfl⟩))

/-- The instruction a cycle executes, as the statements name it. -/
theorem nextInstr_eq (s : State) : s.nextInstr = decode s.arrive.fetch.1 := by
  simp [State.nextInstr, State.fetch]

theorem finishInput_nil (s : State) (k : InputService) (h : s.kbq = []) :
    s.finishInput k = { s with waiting := some k } := by simp [State.finishInput, h]

theorem finishInput_cons (s : State) (k : InputService) (c : Byte) (rest : List Byte) (h : s.kbq = c :: rest) :
    s.finishInput k =
      (({ s with kbq := rest, waiting := none } : State).putString (if k = .input then [c] else [])).writeResult .r0 (zext c) := by
  cases k <;> simp [State.finishInput, h, State.put, State.putString]

end Sys2Proof.Machine
end

