-- ==== Sys2Proof/Tests/Slice0.lean ====
section
/-! SUPPORT. The model's own tests: the checks of WellFormed, a decoded word for every constructor, one-step tests from
spec/95_test_vectors.md (named there as V-... and S...), and for every statement with hypotheses a witness that meets them.
No expected value comes from the model. -/

namespace Sys2Proof.Tests

open Sys2Proof Sys2Proof.Machine

/-- The state a step leaves, if it leaves one. -/
def after (s : State) : Option State :=
  match step s with
  | .next t => some t
  | .fault _ => none
  | .refused _ => none

/-- Whether an outcome is a next state. -/
def isNext : Host.Outcome State Fault Refusal → Bool
  | .next _ => true
  | .fault _ => false
  | .refused _ => false

theorem exists_next {o : Host.Outcome State Fault Refusal} (h : isNext o = true) : ∃ t, o = .next t := by
  cases o with
  | next t => exact ⟨t, rfl⟩
  | fault _ => cases h
  | refused _ => cases h

/-- What `f` sees of the state a step leaves. -/
def seen {α : Type} (f : State → α) (s : State) : Option α := (after s).map f

/-- A running core at `pc` with the given cells: the premises that open spec/95_test_vectors.md. -/
def at' (pc : Word) (cells : Memory) : State := { State.reset with run := .running, pc := pc, mem := cells }

/-- The same with the word at 0x3000. -/
def one (w : Word) : State := at' 0x3000 [(0x3000, w)]

/-- The state with these characters pending. -/
def keys (bs : List Byte) (s : State) : State := { s with kbq := bs }

/-- The state with these codes. -/
def codes (cc : BitVec 3) (s : State) : State := { s with cc := cc }

/-- The default parameters, with texts that can be told apart. -/
def texts (s : State) : State :=
  { s with params := { s.params with haltNotice := [0x68], diagRti := [0x72], diagRes := [0x64], inPrompt := [0x3F] } }

/-- A core before its boot. -/
def bootOf (image : List Byte) : State := { State.reset with image := some image }

/-! ## WellFormed (R91, R95) -/

theorem test_wellFormed_refuses_a_service_vector_in_the_generic_row :
    (Instr.trap 0x20).wellFormed = false ∧ (Instr.trap 0x25).wellFormed = false := by decide

theorem test_wellFormed_accepts_the_vectors_beside_them :
    (Instr.trap 0x1F).wellFormed = true ∧ (Instr.trap 0x26).wellFormed = true := by decide

/-! ## Decoding: the spec's words, one or more for each constructor, and encode's for the canonical ones -/

theorem test_decode_br : decode 0b0000001111111101 = .br false false true 0x1FD := by decide
theorem test_decode_addReg : decode 0b0001010011000100 = .addReg .r2 .r3 .r4 := by decide
theorem test_decode_addImm : decode 0b0001000001111101 = .addImm .r0 .r1 0x1D := by decide
theorem test_decode_ld : decode 0b0010010111111111 = .ld .r2 0x1FF := by decide
theorem test_decode_st : decode 0b0011001000000010 = .st .r1 0x002 := by decide
theorem test_decode_jsr : decode 0b0100100000000101 = .jsr 0x005 ∧ decode 0b0100110000000000 = .jsr 0x400 := by decide
theorem test_decode_jsrr : decode 0b0100000010000000 = .jsrr .r2 := by decide
theorem test_decode_andReg : decode 0b0101001010000011 = .andReg .r1 .r2 .r3 := by decide
theorem test_decode_andImm : decode 0b0101100100111111 = .andImm .r4 .r4 0x1F := by decide
theorem test_decode_ldr : decode 0b0110001010111111 = .ldr .r1 .r2 0x3F := by decide
theorem test_decode_str : decode 0b0111111110111111 = .str .r7 .r6 0x3F := by decide
theorem test_decode_rti : decode 0b1000000000000000 = .rti ∧ decode 0b1000111111111111 = .rti := by decide
theorem test_decode_not : decode 0b1001010001111111 = .not .r2 .r1 := by decide
theorem test_decode_ldi : decode 0b1010011000000001 = .ldi .r3 0x001 := by decide
theorem test_decode_sti : decode 0b1011001000000010 = .sti .r1 0x002 := by decide
theorem test_decode_jmp : decode 0b1100000111000000 = .jmp .r7 := by decide
theorem test_decode_res : decode 0b1101101010111100 = .res := by decide
theorem test_decode_lea : decode 0b1110001000000000 = .lea .r1 0x000 := by decide
theorem test_decode_trapGetc : decode 0b1111000000100000 = .trapGetc := by decide
theorem test_decode_trapOut : decode 0b1111000000100001 = .trapOut := by decide
theorem test_decode_trapPuts : decode 0b1111000000100010 = .trapPuts := by decide
theorem test_decode_trapIn : decode 0b1111000000100011 = .trapIn := by decide
theorem test_decode_trapPutsp : decode 0b1111000000100100 = .trapPutsp := by decide
theorem test_decode_trapHalt : decode 0b1111000000100101 = .trapHalt ∧ decode 0xFF25 = .trapHalt := by decide
theorem test_decode_trap : decode 0b1111000000100110 = .trap 0x26 ∧ decode 0xF01F = .trap 0x1F := by decide

/-- The canonical words (R94, R101): ignored bits zero, NOT's low six bits ones. -/
theorem test_encode_canonical_words :
    encode (.not .r0 .r1) = 0x907F ∧ encode (.jmp .r2) = 0xC080 ∧ encode (.jsrr .r2) = 0x4080 ∧
    encode (.addReg .r0 .r0 .r1) = 0x1001 ∧ encode (.br true true true 0x1FF) = 0x0FFF ∧ encode .trapHalt = 0xF025 := by
  decide

theorem test_encode_places_every_field :
    encode (.ldr .r3 .r4 0x20) = 0x6720 ∧ encode (.sti .r1 0x002) = 0xB202 ∧ encode (.jsr 0x7FF) = 0x4FFF ∧
    encode (.andImm .r1 .r1 0x10) = 0x5270 ∧ encode (.str .r2 .r0 0x02) = 0x7402 ∧ encode (.lea .r0 0x100) = 0xE100 := by
  decide

/-- The host's two questions about one word. -/
theorem test_withFetchWord_runs_the_word :
    decodeTableWord 16 0x107D = some (.addImm .r0 .r1 0x1D) ∧
    step (State.reset.withFetchWord 16 0x107D) =
      exec (.addImm .r0 .r1 0x1D) { State.reset.withFetchWord 16 0x107D with pc := 1 } := ⟨by decide, rfl⟩

/-! ## Operate -/

theorem test_addReg_signed_overflow_wraps : -- V-ADD-2
    seen (fun t => (t.reg .r2, t.cc, t.pc)) (((one 0x14C4).setReg .r3 0x7FFF).setReg .r4 1)
      = some (0x8000, 0b100, 0x3001) := by decide

theorem test_addReg_same_register_thrice : -- V-ADD-3
    seen (fun t => (t.reg .r0, t.cc)) ((one 0x1000).setReg .r0 0x8000) = some (0, 0b010) := by decide

theorem test_addImm_negative : -- V-ADD-1, S4
    seen (fun t => (t.reg .r0, t.cc, t.pc)) ((one 0x107D).setReg .r1 5) = some (2, 0b001, 0x3001) := by decide

theorem test_addImm_most_negative : -- V-ADD-6
    seen (fun t => (t.reg .r0, t.cc)) ((one 0x1030).setReg .r0 0x0010) = some (0, 0b010) := by decide

theorem test_andReg : -- V-AND-2
    seen (fun t => (t.reg .r1, t.cc)) (((one 0x5283).setReg .r2 0xF0F0).setReg .r3 0xFF00) = some (0xF000, 0b100) := by
  decide

theorem test_andImm_sign_extends : -- V-AND-5
    seen (fun t => (t.reg .r1, t.cc)) ((one 0x5270).setReg .r1 0xABCD) = some (0xABC0, 0b100) := by decide

theorem test_andImm_positive : -- V-AND-4
    seen (fun t => (t.reg .r1, t.cc)) ((one 0x526F).setReg .r1 0xABCD) = some (0x000D, 0b001) := by decide

theorem test_not_same_register : -- V-NOT-2
    seen (fun t => (t.reg .r3, t.cc)) ((one 0x96FF).setReg .r3 0xFFFF) = some (0, 0b010) := by decide

theorem test_not_ignores_low_bits : -- V-NOT-4
    seen (fun t => (t.reg .r0, t.cc)) ((one 0x9040).setReg .r1 0x00FF) = some (0xFF00, 0b100) := by decide

/-! ## Loads, stores, LEA -/

theorem test_ld_reads_its_own_word : -- V-LD-1
    seen (fun t => (t.reg .r2, t.cc, t.pc)) (one 0x25FF) = some (0x25FF, 0b001, 0x3001) := by decide

theorem test_ld_address_wraps_below_zero : -- V-LD-2
    seen (fun t => (t.reg .r0, t.cc, t.pc)) (at' 0x0000 [(0x0000, 0x2100), (0xFF01, 0xBEEF)])
      = some (0xBEEF, 0b100, 0x0001) := by decide

theorem test_ldi_polls_a_pending_key : -- V-LDI-2
    seen (fun t => (t.reg .r0, t.cc, t.mem.read 0xFE00, t.mem.read 0xFE02, t.kbq))
      (keys [0x41] (at' 0x3000 [(0x3000, 0xA000), (0x3001, 0xFE00)]))
      = some (0x8000, 0b100, 0x8000, 0x0041, []) := by decide

theorem test_ldi_clears_a_stale_status : -- V-LDI-3
    seen (fun t => (t.reg .r0, t.cc, t.mem.read 0xFE00, t.mem.read 0xFE02))
      (at' 0x3000 [(0x3000, 0xA000), (0x3001, 0xFE00), (0xFE00, 0x8000), (0xFE02, 0x0061)])
      = some (0, 0b010, 0, 0x0061) := by decide

theorem test_ldr_address_wraps : -- V-LDR-2
    seen (fun t => (t.reg .r1, t.cc)) (at' 0x3000 [(0x3000, 0x62BF), (0xFFFF, 0x0007)]) = some (7, 0b001) := by decide

theorem test_ldr_destination_is_base : -- V-LDR-3
    seen (fun t => (t.reg .r0, t.cc)) ((at' 0x3000 [(0x3000, 0x6000), (0x4000, 0x4001)]).setReg .r0 0x4000)
      = some (0x4001, 0b001) := by decide

theorem test_lea_sets_negative : -- V-LEA-3
    seen (fun t => (t.reg .r1, t.cc, t.pc)) (at' 0x7FFF [(0x7FFF, 0xE200)]) = some (0x8000, 0b100, 0x8000) := by decide

theorem test_lea_does_not_poll : -- V-LEA-6
    seen (fun t => (t.reg .r0, t.cc, t.kbq)) (keys [0x41] (at' 0xFDFF [(0xFDFF, 0xE000)]))
      = some (0xFE00, 0b100, [0x41]) := by decide

theorem test_st_keeps_cc : -- V-ST-1
    seen (fun t => (t.mem.read 0x3003, t.cc, t.pc)) (codes 0b100 ((one 0x3202).setReg .r1 0xBEEF))
      = some (0xBEEF, 0b100, 0x3001) := by decide

theorem test_st_at_the_top_of_memory : -- V-ST-4
    seen (fun t => (t.mem.read 0x0000, t.pc)) ((at' 0xFFFF [(0xFFFF, 0x3000)]).setReg .r0 0x5555)
      = some (0x5555, 0) := by decide

theorem test_sti_through_its_own_pointer : -- V-STI-2
    seen (fun t => t.mem.read 0x3001) ((at' 0x3000 [(0x3000, 0xB200), (0x3001, 0x3001)]).setReg .r1 0x1234)
      = some 0x1234 := by decide

theorem test_sti_to_kbsr_does_not_poll : -- V-STI-3
    seen (fun t => (t.mem.read 0xFE00, t.mem.read 0xFE02, t.kbq))
      (keys [0x41] ((at' 0x3000 [(0x3000, 0xB200), (0x3001, 0xFE00)]).setReg .r1 0x00FF))
      = some (0x00FF, 0, [0x41]) := by decide

theorem test_str_address_wraps : -- V-STR-2
    seen (fun t => t.mem.read 0xFFFF) ((one 0x7FBF).setReg .r7 0xAAAA) = some 0xAAAA := by decide

theorem test_str_source_is_base : -- V-STR-3
    seen (fun t => t.mem.read 0x4000) ((one 0x7240).setReg .r1 0x4000) = some 0x4000 := by decide

/-! ## Control -/

/-- V-BR-1, its rows in order, the columns N, Z, P, unset. -/
theorem test_br_outcome_table :
    [0x0005, 0x0205, 0x0405, 0x0605, 0x0805, 0x0A05, 0x0C05, 0x0E05].map (fun w : Word =>
      [0b100, 0b010, 0b001, 0b000].map (fun cc : BitVec 3 => (seen State.pc (codes cc (one w))).getD 0)) =
    [[0x3001, 0x3001, 0x3001, 0x3001], [0x3001, 0x3001, 0x3006, 0x3001], [0x3001, 0x3006, 0x3001, 0x3001],
     [0x3001, 0x3006, 0x3006, 0x3001], [0x3006, 0x3001, 0x3001, 0x3001], [0x3006, 0x3001, 0x3006, 0x3001],
     [0x3006, 0x3006, 0x3001, 0x3001], [0x3006, 0x3006, 0x3006, 0x3001]] := by decide

theorem test_br_backwards_and_wrapping : -- V-BR-2, V-BR-7
    seen State.pc (codes 0b001 (at' 0x3005 [(0x3005, 0x03FD)])) = some 0x3003 ∧
    seen State.pc (codes 0b001 (at' 0xFFFF [(0xFFFF, 0x0EFF)])) = some 0x00FF := by decide

theorem test_jmp_ignored_bits : -- V-JMP-2
    seen (fun t => (t.pc, t.reg .r7)) ((one 0xCEBF).setReg .r2 0x4000) = some (0x4000, 0) := by decide

theorem test_jmp_ret : -- V-JMP-3
    seen State.pc ((at' 0x300A [(0x300A, 0xC1C0)]).setReg .r7 0x3003) = some 0x3003 := by decide

theorem test_jsr_most_negative : -- V-JSR-2
    seen (fun t => (t.reg .r7, t.pc)) (one 0x4C00) = some (0x3001, 0x2C01) := by decide

theorem test_jsr_links_the_wrapped_pc : -- V-JSR-6
    seen (fun t => (t.reg .r7, t.pc)) ((at' 0xFFFF [(0xFFFF, 0x4800)]).setReg .r7 0x1111) = some (0, 0) := by decide

theorem test_jsrr_ignored_bits : -- V-JSRR-2
    seen (fun t => (t.reg .r7, t.pc)) ((one 0x46BF).setReg .r2 0x5000) = some (0x3001, 0x5000) := by decide

theorem test_jsrr_r7_falls_through : -- V-JSRR-3
    seen (fun t => (t.reg .r7, t.pc)) ((one 0x41C0).setReg .r7 0x5000) = some (0x3001, 0x3001) := by decide

/-! ## TRAP -/

theorem test_getc_takes_one_byte : -- V-GETC-1
    seen (fun t => (t.reg .r0, t.cc, t.reg .r7, t.kbq, t.outLog)) (keys [0x41, 0x42] ((one 0xF020).setReg .r0 0xFFFF))
      = some (0x0041, 0b001, 0x3001, [0x42], []) := by decide

theorem test_getc_waits : -- V-GETC-4
    seen (fun t => (t.waiting, t.reg .r7, t.pc)) (one 0xF020) = some (some .getc, 0x3001, 0x3001) := by decide

theorem test_out_low_byte : -- V-OUT-1
    seen (fun t => (t.outLog, t.reg .r7, t.reg .r0)) ((one 0xF021).setReg .r0 0x1241) = some ([0x41], 0x3001, 0x1241) := by
  decide

theorem test_puts_tests_the_whole_word : -- V-PUTS-2
    seen (fun t => (t.outLog, t.reg .r0, t.reg .r7))
      ((at' 0x3000 [(0x3000, 0xF022), (0x4000, 0x1248), (0x4001, 0x4100)]).setReg .r0 0x4000)
      = some ([0x48, 0x00], 0x4000, 0x3001) := by decide

theorem test_puts_polls_at_kbsr : -- V-PUTS-6
    seen (fun t => (t.outLog, t.mem.read 0xFE00, t.mem.read 0xFE02, t.kbq))
      (keys [0x7A] ((at' 0x3000 [(0x3000, 0xF022), (0xFDFF, 0x0041), (0xFE01, 0x0042)]).setReg .r0 0xFDFF))
      = some ([0x41, 0x00, 0x42, 0x7A], 0x8000, 0x007A, []) := by decide

theorem test_in_prompts_and_echoes : -- V-IN-1
    seen (fun t => (t.outLog, t.reg .r0, t.cc, t.reg .r7, t.kbq)) (keys [0x79] (texts (one 0xF023)))
      = some ([0x3F, 0x79], 0x0079, 0b001, 0x3001, []) := by decide

theorem test_in_waits_after_the_prompt : -- V-IN-2
    seen (fun t => (t.waiting, t.outLog, t.reg .r7, t.pc)) (texts (one 0xF023))
      = some (some .input, [0x3F], 0x3001, 0x3001) := by decide

theorem test_putsp_odd_length : -- V-PUTSP-1
    seen (fun t => (t.outLog, t.reg .r0))
      ((at' 0x3000 [(0x3000, 0xF024), (0x4000, 0x4948), (0x4001, 0x0021)]).setReg .r0 0x4000)
      = some ([0x48, 0x49, 0x21], 0x4000) := by decide

theorem test_putsp_stops_at_a_zero_low_byte : -- V-PUTSP-3
    seen State.outLog ((at' 0x3000 [(0x3000, 0xF024), (0x4000, 0x4900)]).setReg .r0 0x4000) = some [] := by decide

theorem test_halt : -- V-HALT-1
    seen (fun t => (t.reg .r7, t.pc, t.run, t.haltCauseOut, t.outLog)) (texts (at' 0x3006 [(0x3006, 0xF025)]))
      = some (0x3007, 0x3007, .halted, 1, [0x68]) := by decide

theorem test_trap_without_a_service : -- V-TRAP-1
    seen (fun t => (t.reg .r7, t.pc, t.reg .r0, t.cc, t.run)) (codes 0b100 ((one 0xF026).setReg .r0 0x1234))
      = some (0x3001, 0x3001, 0x1234, 0b100, .running) := by decide

/-! ## The exception -/

theorem test_rti : -- V-RTI-1
    seen (fun t => (t.pc, t.haltCauseOut, t.outLog, t.reg .r7, t.cc))
      (codes 0b001 (texts ((at' 0x3001 [(0x3001, 0x8000)]).setReg .r7 0x1111)))
      = some (0x3002, 2, [0x72], 0x1111, 0b001) := by decide

theorem test_res : -- V-RES-1
    seen (fun t => (t.pc, t.run, t.haltCauseOut, t.outLog)) (texts (at' 0x4000 [(0x4000, 0xDABC)]))
      = some (0x4001, .halted, 3, [0x64]) := by decide

/-! ## Memory, fetch and boot -/

theorem test_memRead_twice_loses_a_character : -- V-MEM-2
    (((keys [0x41, 0x42] State.reset).memRead 0xFE00).2.memRead 0xFE00).2.mem.read 0xFE02 = 0x0042 := by decide

theorem test_memWrite_to_kbsr_does_not_survive_a_read : -- V-MEM-5
    ((State.reset.memWrite 0xFE00 0x1234).memRead 0xFE00).1 = 0 := by decide

theorem test_fetch_from_kbsr_polls : -- V-FETCH-1
    seen (fun t => (t.pc, t.haltCauseOut, t.mem.read 0xFE00, t.mem.read 0xFE02, t.kbq))
      (keys [0x41] (at' 0xFE00 [(0xFE00, 0x1234)])) = some (0xFE01, 2, 0x8000, 0x0041, []) := by decide

theorem test_fetch_increments_modulo_the_address_space : -- V-FETCH-4
    seen State.pc (at' 0xFFFF []) = some 0 := by decide

theorem test_boot_is_big_endian : -- V-BOOT-1
    seen (fun t => (t.pc, t.mem, t.run)) (bootOf [0x30, 0x00, 0x12, 0x34, 0xAB, 0xCD])
      = some (0x3000, [(0x3000, 0x1234), (0x3001, 0xABCD)], .running) := by decide

theorem test_boot_drops_what_does_not_fit : -- V-BOOT-2
    seen (fun t => (t.pc, t.mem.read 0xFFFE, t.mem.read 0xFFFF, t.mem.read 0x0000))
      { bootOf [0xFF, 0xFE, 0x11, 0x11, 0x22, 0x22, 0x33, 0x33] with mem := [(0x0000, 0xAAAA)] }
      = some (0xFFFE, 0x1111, 0x2222, 0xAAAA) := by decide

theorem test_boot_ignores_an_odd_byte : -- V-BOOT-5
    seen (fun t => (t.pc, t.mem)) (bootOf [0x30, 0x00, 0x12, 0x34, 0xAB]) = some (0x3000, [(0x3000, 0x1234)]) := by decide

theorem test_boot_fails_on_one_byte : -- V-BOOT-6
    after (bootOf [0x30]) = some (bootOf [0x30]) ∧ after (bootOf []) = some (bootOf []) := by decide

theorem test_the_environment_types_before_the_cycle : -- P4, step 3
    seen (fun t => (t.reg .r0, t.mem.read 0xFE02, t.kbq, t.arrivals))
      { at' 0x3000 [(0x3000, 0xA000), (0x3001, 0xFE00)] with arrivals := .listed [[0x61]] } = some (0x8000, 0x0061, [], .listed []) := by
  decide

theorem test_sext_boundaries : -- S1
    sext (0x1D : BitVec 5) = 0xFFFD ∧ sext (0x1F : BitVec 6) = 0x001F ∧ sext (0x100 : BitVec 9) = 0xFF00 ∧
    sext (0x3FF : BitVec 11) = 0x03FF ∧ sext (1 : BitVec 1) = 0xFFFF ∧ sext (0x8000 : BitVec 16) = 0x8000 := by decide

theorem test_setcc_boundaries : -- S2
    (State.reset.setcc 0x0000).cc = 0b010 ∧ (State.reset.setcc 0x0001).cc = 0b001 ∧ (State.reset.setcc 0x7FFF).cc = 0b001 ∧
    (State.reset.setcc 0x8000).cc = 0b100 ∧ (State.reset.setcc 0xFFFF).cc = 0b100 := by decide

theorem test_reset_memory_is_canonical : State.reset.mem.wf := by decide

/-! ## Witnesses: the hypotheses of each statement, met together -/

theorem witness_SignExtensionRule :
    (1 ≤ 1 ∧ 1 ≤ 16 ∧ (1#1).getLsbD (1 - 1) = true) ∧ (1 ≤ 16 ∧ 16 ≤ 16 ∧ (0x7FFF#16).getLsbD (16 - 1) = false) := by decide

theorem witness_RegistersAreOrdinaryStorage : Reg.r7 ≠ Reg.r0 := by decide

theorem witness_SetccRule :
    (0x8000 ≤ (0x8000#16).toNat) ∧ (1 ≤ (1#16).toNat ∧ (1#16).toNat ≤ 0x7FFF) ∧ (0x7FFF#16).toNat ≤ 0x7FFF := by decide

theorem witness_ConditionCodesAreOneHot : legalCC ccUnset ∧ legalCC ccP ∧ ccP ≠ ccUnset ∧ legalCC ccN := by decide

theorem witness_MemReadRule :
    ((0x0000 : Word) ≠ State.reset.params.kbsrAddr ∧ (0xFFFF : Word) ≠ State.reset.params.kbsrAddr) ∧
    State.reset.kbq = [] ∧ (keys [0x41, 0x42] State.reset).kbq = 0x41 :: [0x42] ∧
    State.reset.params.kbsrAddr ≠ State.reset.params.kbdrAddr := by decide

theorem witness_DecodeEncodeRoundTrip :
    (Instr.trap 0xFF).wellFormed = true ∧ (Instr.br false false false 0).wellFormed = true := by decide

theorem witness_IgnoredBitsDoNotMatter :
    0x1019#16 ≠ 0x1001#16 ∧ 0x1019 &&& examinedBits (decode 0x1019) = 0x1001 &&& examinedBits (decode 0x1019) := by decide

theorem witness_AddRegisterForm : (0x14C4#16).extractLsb 15 12 = 0b0001#4 ∧ (0x14C4#16).extractLsb 5 5 = 0#1 := by decide
theorem witness_AddImmediateForm : (0x107D#16).extractLsb 15 12 = 0b0001#4 ∧ (0x107D#16).extractLsb 5 5 = 1#1 := by decide
theorem witness_AndRegisterForm : (0x5283#16).extractLsb 15 12 = 0b0101#4 ∧ (0x5283#16).extractLsb 5 5 = 0#1 := by decide
theorem witness_AndImmediateForm : (0x5020#16).extractLsb 15 12 = 0b0101#4 ∧ (0x5020#16).extractLsb 5 5 = 1#1 := by decide
theorem witness_NotInstruction : (0x947F#16).extractLsb 15 12 = 0b1001#4 := by decide
theorem witness_LoadPcRelative : (0x25FF#16).extractLsb 15 12 = 0b0010#4 := by decide
theorem witness_LoadBaseOffset : (0x62BF#16).extractLsb 15 12 = 0b0110#4 := by decide
theorem witness_LoadEffectiveAddress : (0xE001#16).extractLsb 15 12 = 0b1110#4 := by decide
theorem witness_StorePcRelative : (0x3202#16).extractLsb 15 12 = 0b0011#4 := by decide
theorem witness_StoreBaseOffset : (0x7402#16).extractLsb 15 12 = 0b0111#4 := by decide

theorem witness_LoadIndirect_word : (0xA601#16).extractLsb 15 12 = 0b1010#4 := by decide

/-- The pointer is KBSR_ADDR and a character is pending, so both states after a read differ from the one before. -/
theorem witness_LoadIndirect : ∃ (s u v : State) (addr value : Word),
    s.memRead (s.pc + sext (0 : BitVec 9)) = (addr, u) ∧ u.memRead addr = (value, v) ∧ value = 0x8000 :=
  ⟨keys [0x41] (at' 0x3001 [(0x3001, 0xFE00)]), _, _, _, _, rfl, rfl, by decide⟩

theorem witness_StoreIndirect_word : (0xB202#16).extractLsb 15 12 = 0b1011#4 := by decide

/-- A plain pointer, and one that is read from KBSR_ADDR itself. -/
theorem witness_StoreIndirect :
    (∃ (s u : State) (addr : Word), s.memRead (s.pc + sext (0 : BitVec 9)) = (addr, u) ∧
      s.pc + sext (0 : BitVec 9) ≠ s.params.kbsrAddr ∧ addr = 0x300B) ∧
    ∃ (s u : State) (addr : Word), s.memRead (s.pc + sext (0 : BitVec 9)) = (addr, u) ∧
      s.pc + sext (0 : BitVec 9) = s.params.kbsrAddr ∧ addr = 0x8000 :=
  ⟨⟨at' 0x3008 [(0x3008, 0x300B)], _, _, rfl, by decide, by decide⟩,
    ⟨keys [0x41] (at' 0xFE00 []), _, _, rfl, by decide, by decide⟩⟩

/-- A flag that matches, a flag that does not, and no flag at all. -/
theorem witness_ConditionalBranch :
    (0x03FD#16).extractLsb 15 12 = 0b0000#4 ∧ (true = true ∧ (codes 0b001 State.reset).cc = ccP) ∧
    ¬((false = true ∧ (codes 0b001 State.reset).cc = ccN) ∨ (true = true ∧ (codes 0b001 State.reset).cc = ccZ) ∨
      (false = true ∧ (codes 0b001 State.reset).cc = ccP)) := by decide

theorem witness_JumpThroughRegister : (0xC1C0#16).extractLsb 15 12 = 0b1100#4 := by decide
theorem witness_JumpToSubroutine : (0x4805#16).extractLsb 15 12 = 0b0100#4 ∧ (0x4805#16).extractLsb 11 11 = 1#1 := by decide

theorem witness_JumpToSubroutineThroughRegister :
    (0x4080#16).extractLsb 15 12 = 0b0100#4 ∧ (0x4080#16).extractLsb 11 11 = 0#1 ∧ Reg.r2 ≠ Reg.r7 := by decide

/-- A word of each of the seven cases of the vector. -/
theorem witness_TrapCommonPart_word :
    [0xF020, 0xF021, 0xF022, 0xF023, 0xF024, 0xFF25, 0xF026].map (fun w : Word => (w.extractLsb 15 12, w.extractLsb 7 0)) =
    [(0b1111#4, 0x20#8), (0b1111#4, 0x21#8), (0b1111#4, 0x22#8), (0b1111#4, 0x23#8), (0b1111#4, 0x24#8), (0b1111#4, 0x25#8),
     (0b1111#4, 0x26#8)] := by decide

/-- Every one of the seven answers a next state, here with a character pending. -/
theorem witness_TrapCommonPart :
    (∃ t, exec .trapGetc (keys [0x41] State.reset) = .next t) ∧ (∃ t, exec .trapOut State.reset = .next t) ∧
    (∃ t, exec .trapPuts State.reset = .next t) ∧ (∃ t, exec .trapIn (keys [0x41] State.reset) = .next t) ∧
    (∃ t, exec .trapPutsp State.reset = .next t) ∧ (∃ t, exec .trapHalt State.reset = .next t) ∧
    ∃ t, exec (.trap 0x26) State.reset = .next t :=
  ⟨exists_next (by decide), exists_next (by decide), exists_next (by decide), exists_next (by decide),
    exists_next (by decide), exists_next (by decide), exists_next (by decide)⟩

theorem witness_UndefinedTrapVector :
    (0xF01F#16).extractLsb 15 12 = 0b1111#4 ∧ (0xF01F#16).extractLsb 7 0 = 0x1F#8 ∧ (0x1F#8).toNat < 0x20 ∧
    0x25 < (0x26#8).toNat ∧ 0x25 < (0xFF#8).toNat := by decide

theorem witness_GetcService : (keys [0x00, 0x42] State.reset).kbq = 0x00 :: [0x42] ∧ State.reset.kbq = [] := by decide

theorem witness_InService : (keys [0xFF] (texts State.reset)).kbq = 0xFF :: [] ∧ (texts State.reset).kbq = [] := by decide

/-- A wait with a schedule and one without, and a character that ends the first. -/
theorem witness_WaitingForACharacter :
    let s : State := { at' 0x3001 [] with waiting := some .input, arrivals := .listed [[0x41], []] }
    let u : State := { at' 0x3001 [] with waiting := some .getc }
    (s.run = .running ∧ s.waiting = some .input ∧ s.kbq ++ s.arrivals.now = 0x41 :: []) ∧
    (u.run = .running ∧ u.waiting = some .getc ∧ u.kbq ++ u.arrivals.now = []) := by decide

/-- S6: two characters, and the empty string. -/
theorem witness_PutsWritesTheString :
    let s := (at' 0x3001 [(0x4000, 0x0048), (0x4001, 0x0049)]).setReg .r0 0x4000
    ((∀ i, i < 2 → wordAt s (s.reg .r0) i ≠ 0) ∧ wordAt s (s.reg .r0) 2 = 0 ∧
      ∀ i, i ≤ 2 → s.reg .r0 + BitVec.ofNat 16 i ≠ s.params.kbsrAddr) ∧
    wordAt State.reset (State.reset.reg .r0) 0 = 0 := by decide

/-- V-PUTS-5. -/
theorem witness_PutsStopsAtTheKeyboard :
    let s := (at' 0x3001 [(0xFDFF, 0x0041), (0xFE01, 0x0042)]).setReg .r0 0xFDFF
    (∀ i, i < 1 → wordAt s (s.reg .r0) i ≠ 0 ∧ s.reg .r0 + BitVec.ofNat 16 i ≠ s.params.kbsrAddr) ∧
    s.reg .r0 + BitVec.ofNat 16 1 = s.params.kbsrAddr ∧ s.kbq = [] := by decide

/-- V-PUTSP-1, which ends on a high byte, and V-PUTSP-3, which ends on a low byte at once. -/
theorem witness_PutspWritesThePackedString :
    let s := (at' 0x3001 [(0x4000, 0x4948), (0x4001, 0x0021), (0x5000, 0x4900)]).setReg .r0 0x4000
    (∀ i, i < 1 → lowByte (wordAt s (s.reg .r0) i) ≠ 0 ∧ highByte (wordAt s (s.reg .r0) i) ≠ 0) ∧
    (lowByte (wordAt s (s.reg .r0) 1) = 0 ∨ highByte (wordAt s (s.reg .r0) 1) = 0) ∧
    (∀ i, i ≤ 1 → s.reg .r0 + BitVec.ofNat 16 i ≠ s.params.kbsrAddr) ∧ lowByte (wordAt s 0x5000 0) = 0 := by decide

theorem witness_UnimplementedOpcodeEntry :
    (0x8FFF#16).extractLsb 15 12 = 0b1000#4 ∧ (0xDABC#16).extractLsb 15 12 = 0b1101#4 := by decide

theorem witness_StepRunsTheDecodedInstruction : ∃ (s u : State) (ir : Word),
    s.ready ∧ s.memRead s.pc = (ir, u) ∧ decode ir = .addImm .r0 .r1 0x1D :=
  ⟨one 0x107D, _, _, ⟨rfl, rfl, rfl⟩, rfl, by decide⟩

theorem witness_TypingComesBeforeTheCycle : ∃ (s u : State) (ir : Word),
    s.run = .running ∧ s.waiting = none ∧ s.arrivals = .endless 0 7 ∧
    State.memRead { s with kbq := s.kbq ++ s.arrivals.now, arrivals := s.arrivals.later } s.pc = (ir, u) ∧
    decode ir = .trapGetc :=
  ⟨{ one 0xF020 with arrivals := .endless 0 7 }, _, _, rfl, rfl, rfl, rfl, by decide⟩

theorem witness_HaltedCoreDoesNothing :
    (∃ t, step (one 0xF025) = .next t ∧ (one 0xF025).run = .running ∧ t.run = .halted) ∧
    ({ State.reset with run := .halted, haltCause := .trapHalt } : State).run = .halted :=
  ⟨⟨_, rfl, by decide⟩, by decide⟩

/-- V-BOOT-2's image: a word at 0xFFFF that fits, and an address on either side of the placed words. -/
theorem witness_BootPlacesTheImage :
    let words : List Word := [0x1111, 0x2222, 0x3333]
    let s := bootOf (imageBytes 0xFFFE ++ words.flatMap imageBytes)
    s.run = .idle ∧ s.image = some [0xFF, 0xFE, 0x11, 0x11, 0x22, 0x22, 0x33, 0x33] ∧
    (0xFFFE#16).toNat + 1 < 65536 ∧ ¬(0xFFFE#16).toNat + 2 < 65536 ∧ (0xFFFD#16).toNat < (0xFFFE#16).toNat ∧
    (0x3000#16).toNat + 3 ≤ (0x3003#16).toNat := by decide

theorem witness_MalformedImages :
    (State.reset.run = .idle ∧ State.reset.image = none) ∧ ([0x30] : List Byte).length < 2 ∧
    (bootOf [0x30, 0x00, 0x12, 0x34, 0xAB]).image = some (imageBytes 0x3000 ++ [0x1234#16].flatMap imageBytes ++ [0xAB]) := by
  decide

/-- V-ST-3. -/
theorem witness_NextFetchSeesTheStore :
    let s := (one 0x3200).setReg .r1 0xF025
    s.ready ∧ s.pc ≠ s.params.kbsrAddr ∧ s.pc + 1 ≠ s.params.kbsrAddr ∧ decode (s.mem.read s.pc) = .st .r1 0 :=
  ⟨⟨rfl, rfl, rfl⟩, by decide, by decide, by decide⟩

/-- A launch that is not the default one. -/
theorem witness_ResetMeetsInvariant :
    let l : Launch := { Launch.default with mem0 := [(0x0000, 0xAAAA), (0xFFFF, 0x0001)], kbq := [0x41], image := some [0x30] }
    l.mem0.wf ∧ l.params.kbsrAddr ≠ l.params.kbdrAddr := by decide

/-- The invariant holds, and a step goes on, before boot, while running, while waiting and when halted. -/
theorem witness_StepKeepsInvariant :
    (Inv State.reset ∧ ∃ t, step State.reset = .next t) ∧
    (Inv (one 0x107D) ∧ ∃ t, step (one 0x107D) = .next t) ∧
    (Inv { (at' 0x3000 []).setReg .r7 0x3000 with waiting := some .getc } ∧
      ∃ t, step { (at' 0x3000 []).setReg .r7 0x3000 with waiting := some .getc } = .next t) ∧
    (Inv { at' 0x3000 [] with run := .halted, haltCause := .unimplRti } ∧
      ∃ t, step { at' 0x3000 [] with run := .halted, haltCause := .unimplRti } = .next t) :=
  ⟨⟨by decide, exists_next (by decide)⟩, ⟨by decide, exists_next (by decide)⟩, ⟨by decide, exists_next (by decide)⟩,
    ⟨by decide, exists_next (by decide)⟩⟩

/-- A halting instruction, one that does not halt, and a boot. -/
theorem witness_ThreeWaysToHalt :
    (∃ t, step (one 0xF025) = .next t ∧ (one 0xF025).run = .running ∧ (one 0xF025).waiting = none ∧
      haltsCore (one 0xF025).nextInstr = true ∧ t.run = .halted) ∧
    (∃ t, step (one 0xF026) = .next t ∧ (one 0xF026).run = .running ∧ haltsCore (one 0xF026).nextInstr = false ∧ t.run = .running) ∧
    (∃ t, step (bootOf [0x30, 0x00]) = .next t ∧ (bootOf [0x30, 0x00]).run = .idle ∧ t.run = .running) ∧
    ∃ t, step { one 0 with run := .halted } = .next t :=
  ⟨⟨_, rfl, by decide⟩, ⟨_, rfl, by decide⟩, ⟨_, rfl, by decide⟩, ⟨_, rfl⟩⟩

theorem witness_OnlyTheListedRegistersAreWritten :
    (∃ t, step (one 0x4805) = .next t ∧ (one 0x4805).run = .running ∧ (one 0x4805).waiting = none ∧
      regsWritten (one 0x4805).nextInstr = [.r7]) ∧
    ∃ t, step { keys [0x41] (one 0) with waiting := some .getc } = .next t :=
  ⟨⟨_, rfl, by decide⟩, ⟨_, rfl⟩⟩

theorem witness_OnlyTheListedInstructionsWriteCC :
    (∃ t, step (one 0x3202) = .next t ∧ (one 0x3202).run = .running ∧ (one 0x3202).waiting = none ∧
      writesCC (one 0x3202).nextInstr = false) ∧
    ∃ t, step (one 0xE001) = .next t ∧ writesCC (one 0xE001).nextInstr = true ∧ t.waiting = none :=
  ⟨⟨_, rfl, by decide⟩, ⟨_, rfl, by decide⟩⟩

theorem witness_ConsoleIsALogAndAQueue :
    (∃ t, step (keys [0x41] (one 0xF020)) = .next t ∧ (one 0xF020).run = .running ∧ (one 0xF020).waiting = none ∧
      writesConsole (keys [0x41] (one 0xF020)).nextInstr = false) ∧
    ∃ t, step (keys [0x41] State.reset) = .next t ∧ State.reset.run ≠ .running :=
  ⟨⟨_, rfl, by decide⟩, ⟨_, rfl, by decide⟩⟩

/-- A store, and a cell beside the one it stores to. -/
theorem witness_OnlyStoresAndPollsChangeMemory :
    ∃ t, step (one 0x3202) = .next t ∧ (one 0x3202).run = .running ∧ (one 0x3202).waiting = none ∧
      (0x3004 : Word) ≠ (one 0x3202).params.kbsrAddr ∧ (0x3004 : Word) ≠ (one 0x3202).params.kbdrAddr ∧
      storeAddress (one 0x3202).nextInstr (one 0x3202).arrive.fetch.2 ≠ some 0x3004 ∧
      storeAddress (one 0x3202).nextInstr (one 0x3202).arrive.fetch.2 = some 0x3003 :=
  ⟨_, rfl, by decide⟩

theorem witness_LaunchArgumentsAreFixed :
    ∃ t, step { one 0x107D with arrivals := .listed [[0x61], []] } = .next t ∧ t.arrivals = .listed [[]] :=
  ⟨_, rfl, by decide⟩

/-- What an endless schedule types stands at the tail of the queue, whatever it is, and the schedule goes on. -/
theorem test_an_endless_schedule_goes_on :
    seen (fun t => (t.reg .r0, t.kbq, t.arrivals)) (keys [0x41] { one 0xF020 with arrivals := .endless 2 5 })
      = some (0x0041, Config.typing 2 5, .endless 2 6) := rfl

/-- An LDI whose pointer is plain, in a core with a character pending. -/
def ldiCore : State := keys [0x41] (at' 0x3006 [(0x3006, 0xA601), (0x3008, 0x300B), (0x300B, 0x1234)])

theorem ldiCore_instr : ldiCore.nextInstr = .ldi .r3 0x001 := by decide

theorem ldiCore_reads : dataReads (.ldi .r3 0x001) { ldiCore with pc := ldiCore.pc + 1 } = [0x3008, 0x300B] := by decide

theorem witness_TypingIsUnseenUntilPolled :
    ldiCore.ready ∧ ldiCore.pc ≠ ldiCore.params.kbsrAddr ∧ isInputOrString ldiCore.nextInstr = false ∧
    (∀ a ∈ dataReads ldiCore.nextInstr { ldiCore with pc := ldiCore.pc + 1 }, a ≠ ldiCore.params.kbsrAddr) ∧
    ∃ t, step ldiCore = .next t := by
  rw [ldiCore_instr, ldiCore_reads]
  refine ⟨⟨rfl, rfl, rfl⟩, by decide, by decide, fun a ha => ?_, exists_next (by decide)⟩
  obtain rfl | rfl : a = 0x3008 ∨ a = 0x300B := by simpa using ha
  · decide
  · decide

end Sys2Proof.Tests
end

section
/-! PROOFS. Sign extension as a number and as bits (spec/00_scope.md R9). -/

namespace Sys2Proof.Machine

/-- The formula of R9. It needs `n ≤ 16`: a wider value would be truncated. -/
theorem toNat_sext {n : Nat} (v : BitVec n) (hn : n ≤ 16) :
    (sext v).toNat = if v.getLsbD (n - 1) then v.toNat + (65536 - 2 ^ n) else v.toNat := by
  have hfits : (v.setWidth 16).toNat = v.toNat := BitVec.toNat_setWidth_of_le hn
  rw [sext, BitVec.toNat_signExtend, hfits, BitVec.msb_eq_getLsbD_last]
  split
  case isTrue => rfl
  case isFalse => exact Nat.add_zero _

/-- Every bit of the result above `n - 1` is the sign bit. -/
theorem getLsbD_sext {n : Nat} (v : BitVec n) {i : Nat} (hi : i < 16) :
    (sext v).getLsbD i = if i < n then v.getLsbD i else v.getLsbD (n - 1) := by
  rw [sext, BitVec.getLsbD_signExtend, BitVec.msb_eq_getLsbD_last, decide_eq_true hi, Bool.true_and]

end Sys2Proof.Machine

namespace Sys2Proof.Proofs

open Sys2Proof.Machine

/-- Settles O1: the formula and the bits of `sext`, at every width up to the word's. -/
theorem signExtensionRule : Obligations.SignExtensionRule := by
  intro n v _ hn
  exact ⟨toNat_sext v hn, fun _ hi => getLsbD_sext v hi⟩

end Sys2Proof.Proofs
end

section
/-! PROOFS. The general registers are ordinary storage, all zero at reset (spec/10_state.md R20, R35). -/

namespace Sys2Proof.Machine

@[simp] theorem State.reg_launch (l : Launch) (r : Reg) : (State.launch l).reg r = 0 := by
  cases r <;> rfl

theorem State.reg_setReg_same (s : State) (r : Reg) (v : Word) : (s.setReg r v).reg r = v := by
  rw [State.reg_setReg, if_pos rfl]

theorem State.reg_setReg_of_ne (s : State) {r q : Reg} (v : Word) (hq : q ≠ r) : (s.setReg r v).reg q = s.reg q := by
  rw [State.reg_setReg, if_neg hq]

end Sys2Proof.Machine

namespace Sys2Proof.Proofs

open Sys2Proof.Machine

/-- Settles O2: a register's field and its number are inverse to each other, a write is read back in that register
alone, and a launch leaves every register at 0. -/
theorem registersAreOrdinaryStorage : Obligations.RegistersAreOrdinaryStorage :=
  ⟨Reg.toField_ofField, Reg.ofField_toField,
    fun s r v => ⟨s.reg_setReg_same r v, fun _ hq => s.reg_setReg_of_ne v hq⟩, State.reg_launch⟩

end Sys2Proof.Proofs
end

section
/-! PROOFS. A write to memory is a plain store at every address (spec/20_memory.md R52). -/

namespace Sys2Proof.Machine

theorem State.read_memWrite_same (s : State) (a v : Word) : (s.memWrite a v).mem.read a = v := by
  rw [State.memWrite_mem, Memory.read_write, if_pos rfl]

theorem State.read_memWrite_of_ne (s : State) {a b : Word} (v : Word) (hb : b ≠ a) :
    (s.memWrite a v).mem.read b = s.mem.read b := by
  rw [State.memWrite_mem, Memory.read_write, if_neg hb]

end Sys2Proof.Machine

namespace Sys2Proof.Proofs

open Sys2Proof.Machine

theorem cellsKept_memWrite (s : State) (a v : Word) : CellsKept s (s.memWrite a v) [a] :=
  fun _ hb => s.read_memWrite_of_ne v (List.ne_of_not_mem_cons hb)

theorem consoleKept_memWrite (s : State) (a v : Word) : ConsoleKept s (s.memWrite a v) :=
  ⟨s.memWrite_kbq a v, s.memWrite_outLog a v⟩

theorem controlKept_memWrite (s : State) (a v : Word) : ControlKept s (s.memWrite a v) :=
  ⟨s.memWrite_run a v, s.memWrite_haltCause a v, s.memWrite_waiting a v⟩

theorem launchKept_memWrite (s : State) (a v : Word) : LaunchKept s (s.memWrite a v) :=
  ⟨s.memWrite_params a v, s.memWrite_image a v, s.memWrite_arrivals a v⟩

theorem coreKept_memWrite (s : State) (a v : Word) : CoreKept s (s.memWrite a v) [] :=
  ⟨fun r _ => s.memWrite_reg a v r, s.memWrite_cc a v, controlKept_memWrite s a v, launchKept_memWrite s a v⟩

/-- Settles O7: the cell written holds the value, and every other cell, the console, PC and the core are kept. -/
theorem memWriteRule : Obligations.MemWriteRule :=
  fun s a v => ⟨s.read_memWrite_same a v, cellsKept_memWrite s a v, consoleKept_memWrite s a v,
    s.memWrite_pc a v, coreKept_memWrite s a v⟩

end Sys2Proof.Proofs
end

section
/-! PROOFS. A field of a word read back from a word put together with `place` (spec/00_scope.md R8). -/

namespace Sys2Proof

@[simp] theorem field_or (x y : Word) (lo n : Nat) : field (x ||| y) lo n = field x lo n ||| field y lo n :=
  BitVec.extractLsb'_or

@[simp] theorem bitAt_or (x y : Word) (i : Nat) : bitAt (x ||| y) i = (bitAt x i || bitAt y i) :=
  BitVec.getLsbD_or

theorem getLsbD_place {n : Nat} (b : BitVec n) (lo i : Nat) :
    (place b lo).getLsbD i = (decide (i < 16) && decide (lo ≤ i) && b.getLsbD (i - lo)) := by
  simp only [place, BitVec.getLsbD_shiftLeft, BitVec.getLsbD_setWidth]
  by_cases hi : i < 16
  · by_cases hlo : lo ≤ i <;> simp [hi, hlo, Nat.sub_lt_of_lt hi]
  · simp [hi]

/-- A field placed at `lo` is read back at `lo`. -/
@[simp] theorem field_place_same {n lo : Nat} (b : BitVec n) (h : lo + n ≤ 16) : field (place b lo) lo n = b := by
  apply BitVec.eq_of_getLsbD_eq
  intro i hi
  have hfits : lo + i < 16 := by omega
  simp only [field, BitVec.getLsbD_extractLsb', getLsbD_place, hi, hfits, Nat.le_add_right, Nat.add_sub_cancel_left,
    decide_true, Bool.true_and]

/-- A field beside the one placed reads 0. -/
@[simp] theorem field_place_of_disjoint {m lo lo' : Nat} (b : BitVec m) (n : Nat)
    (h : lo + n ≤ lo' ∨ lo' + m ≤ lo) : field (place b lo') lo n = 0 := by
  apply BitVec.eq_of_getLsbD_eq
  intro i hi
  have hout : lo' ≤ lo + i → b.getLsbD (lo + i - lo') = false := fun _ => BitVec.getLsbD_of_ge _ _ (by omega)
  simpa [field, getLsbD_place, hi] using fun _ => hout

@[simp] theorem bitAt_place_ofBool {i : Nat} (b : Bool) (h : i < 16) : bitAt (place (BitVec.ofBool b) i) i = b := by
  simp only [bitAt, getLsbD_place, h, Nat.le_refl, Nat.sub_self, decide_true, Bool.true_and, BitVec.getLsbD_ofBool]

@[simp] theorem bitAt_place_of_disjoint {n lo i : Nat} (b : BitVec n) (h : i < lo ∨ lo + n ≤ i) :
    bitAt (place b lo) i = false := by
  have hout : lo ≤ i → b.getLsbD (i - lo) = false := fun _ => BitVec.getLsbD_of_ge _ _ (by omega)
  simpa [bitAt, getLsbD_place] using fun _ => hout

@[simp] theorem field_ofNat (k lo n : Nat) : field (BitVec.ofNat 16 k) lo n = BitVec.ofNat n ((k % 65536) >>> lo) := rfl

@[simp] theorem bitAt_ofNat (k i : Nat) : bitAt (BitVec.ofNat 16 k) i = (decide (i < 16) && k.testBit i) :=
  BitVec.getLsbD_ofNat 16 k i

end Sys2Proof
end

section
/-! PROOFS. The decoder as a relation between a word and the instruction it stands for, one clause per row of
spec/opcode_table.json (spec/30_encoding.md R82, R90, R91, R95). -/

namespace Sys2Proof

/-- `w` stands for the instruction: what the opcode, the form bit and the operand fields of `w` have to be. -/
inductive Decodes (w : Word) : Instr → Prop
  | br {n z p off} (op : field w 12 4 = 0) (hn : bitAt w 11 = n) (hz : bitAt w 10 = z) (hp : bitAt w 9 = p)
      (hoff : field w 0 9 = off) : Decodes w (.br n z p off)
  | addReg {dr sr1 sr2} (op : field w 12 4 = 1) (form : bitAt w 5 = false) (hdr : regAt w 9 = dr)
      (hsr1 : regAt w 6 = sr1) (hsr2 : regAt w 0 = sr2) : Decodes w (.addReg dr sr1 sr2)
  | addImm {dr sr1 imm} (op : field w 12 4 = 1) (form : bitAt w 5 = true) (hdr : regAt w 9 = dr)
      (hsr1 : regAt w 6 = sr1) (himm : field w 0 5 = imm) : Decodes w (.addImm dr sr1 imm)
  | ld {dr off} (op : field w 12 4 = 2) (hdr : regAt w 9 = dr) (hoff : field w 0 9 = off) : Decodes w (.ld dr off)
  | st {sr off} (op : field w 12 4 = 3) (hsr : regAt w 9 = sr) (hoff : field w 0 9 = off) : Decodes w (.st sr off)
  | jsr {off} (op : field w 12 4 = 4) (form : bitAt w 11 = true) (hoff : field w 0 11 = off) : Decodes w (.jsr off)
  | jsrr {base} (op : field w 12 4 = 4) (form : bitAt w 11 = false) (hbase : regAt w 6 = base) : Decodes w (.jsrr base)
  | andReg {dr sr1 sr2} (op : field w 12 4 = 5) (form : bitAt w 5 = false) (hdr : regAt w 9 = dr)
      (hsr1 : regAt w 6 = sr1) (hsr2 : regAt w 0 = sr2) : Decodes w (.andReg dr sr1 sr2)
  | andImm {dr sr1 imm} (op : field w 12 4 = 5) (form : bitAt w 5 = true) (hdr : regAt w 9 = dr)
      (hsr1 : regAt w 6 = sr1) (himm : field w 0 5 = imm) : Decodes w (.andImm dr sr1 imm)
  | ldr {dr base off} (op : field w 12 4 = 6) (hdr : regAt w 9 = dr) (hbase : regAt w 6 = base)
      (hoff : field w 0 6 = off) : Decodes w (.ldr dr base off)
  | str {sr base off} (op : field w 12 4 = 7) (hsr : regAt w 9 = sr) (hbase : regAt w 6 = base)
      (hoff : field w 0 6 = off) : Decodes w (.str sr base off)
  | rti (op : field w 12 4 = 8) : Decodes w .rti
  | not {dr sr} (op : field w 12 4 = 9) (hdr : regAt w 9 = dr) (hsr : regAt w 6 = sr) : Decodes w (.not dr sr)
  | ldi {dr off} (op : field w 12 4 = 10) (hdr : regAt w 9 = dr) (hoff : field w 0 9 = off) : Decodes w (.ldi dr off)
  | sti {sr off} (op : field w 12 4 = 11) (hsr : regAt w 9 = sr) (hoff : field w 0 9 = off) : Decodes w (.sti sr off)
  | jmp {base} (op : field w 12 4 = 12) (hbase : regAt w 6 = base) : Decodes w (.jmp base)
  | res (op : field w 12 4 = 13) : Decodes w .res
  | lea {dr off} (op : field w 12 4 = 14) (hdr : regAt w 9 = dr) (hoff : field w 0 9 = off) : Decodes w (.lea dr off)
  | trapGetc (op : field w 12 4 = 15) (vec : field w 0 8 = 0x20) : Decodes w .trapGetc
  | trapOut (op : field w 12 4 = 15) (vec : field w 0 8 = 0x21) : Decodes w .trapOut
  | trapPuts (op : field w 12 4 = 15) (vec : field w 0 8 = 0x22) : Decodes w .trapPuts
  | trapIn (op : field w 12 4 = 15) (vec : field w 0 8 = 0x23) : Decodes w .trapIn
  | trapPutsp (op : field w 12 4 = 15) (vec : field w 0 8 = 0x24) : Decodes w .trapPutsp
  | trapHalt (op : field w 12 4 = 15) (vec : field w 0 8 = 0x25) : Decodes w .trapHalt
  | trap {v} (op : field w 12 4 = 15) (vec : field w 0 8 = v) (other : isServiceVector v = false) : Decodes w (.trap v)

/-- A vector without a service selects the generic row (R91). -/
theorem decodeTrap_of_not_service {v : BitVec 8} (h : isServiceVector v = false) : decodeTrap v = .trap v := by
  unfold decodeTrap
  split
  case h_7 => rfl
  all_goals simp_all [isServiceVector]

/-- Opcode 1111: the vector selects one of the six service rows, or else the generic one (R91). -/
theorem decodes_decodeTrap {w : Word} (op : field w 12 4 = 15) : Decodes w (decodeTrap (field w 0 8)) := by
  unfold decodeTrap
  split
  case h_1 h => exact .trapGetc op (BitVec.eq_of_toNat_eq h)
  case h_2 h => exact .trapOut op (BitVec.eq_of_toNat_eq h)
  case h_3 h => exact .trapPuts op (BitVec.eq_of_toNat_eq h)
  case h_4 h => exact .trapIn op (BitVec.eq_of_toNat_eq h)
  case h_5 h => exact .trapPutsp op (BitVec.eq_of_toNat_eq h)
  case h_6 h => exact .trapHalt op (BitVec.eq_of_toNat_eq h)
  case h_7 =>
    have other : isServiceVector (field w 0 8) = false := by
      simp only [imp_false] at *
      simp only [isServiceVector, Bool.and_eq_false_iff, decide_eq_false_iff_not]
      omega
    exact .trap op rfl other

/-- Every word stands for the instruction `decode` gives. -/
theorem decodes_decode (w : Word) : Decodes w (decode w) := by
  unfold decode
  split
  case h_1 op => exact .br (BitVec.eq_of_toNat_eq op) rfl rfl rfl rfl
  case h_2 op =>
    split
    case isTrue form => exact .addImm (BitVec.eq_of_toNat_eq op) form rfl rfl rfl
    case isFalse form => exact .addReg (BitVec.eq_of_toNat_eq op) (Bool.eq_false_iff.2 form) rfl rfl rfl
  case h_3 op => exact .ld (BitVec.eq_of_toNat_eq op) rfl rfl
  case h_4 op => exact .st (BitVec.eq_of_toNat_eq op) rfl rfl
  case h_5 op =>
    split
    case isTrue form => exact .jsr (BitVec.eq_of_toNat_eq op) form rfl
    case isFalse form => exact .jsrr (BitVec.eq_of_toNat_eq op) (Bool.eq_false_iff.2 form) rfl
  case h_6 op =>
    split
    case isTrue form => exact .andImm (BitVec.eq_of_toNat_eq op) form rfl rfl rfl
    case isFalse form => exact .andReg (BitVec.eq_of_toNat_eq op) (Bool.eq_false_iff.2 form) rfl rfl rfl
  case h_7 op => exact .ldr (BitVec.eq_of_toNat_eq op) rfl rfl rfl
  case h_8 op => exact .str (BitVec.eq_of_toNat_eq op) rfl rfl rfl
  case h_9 op => exact .rti (BitVec.eq_of_toNat_eq op)
  case h_10 op => exact .not (BitVec.eq_of_toNat_eq op) rfl rfl
  case h_11 op => exact .ldi (BitVec.eq_of_toNat_eq op) rfl rfl
  case h_12 op => exact .sti (BitVec.eq_of_toNat_eq op) rfl rfl
  case h_13 op => exact .jmp (BitVec.eq_of_toNat_eq op) rfl
  case h_14 op => exact .res (BitVec.eq_of_toNat_eq op)
  case h_15 op => exact .lea (BitVec.eq_of_toNat_eq op) rfl rfl
  case h_16 =>
    have op : field w 12 4 = 15 := by
      simp only [imp_false] at *
      have hlt := (field w 12 4).isLt
      have hval : (field w 12 4).toNat = 15 := by omega
      exact BitVec.eq_of_toNat_eq hval
    exact decodes_decodeTrap op

/-- A word stands for no other instruction than the one `decode` gives. -/
theorem Decodes.decode_eq {w : Word} {i : Instr} (h : Decodes w i) : decode w = i := by
  cases h
  case trap op vec other => simp [decode, op, vec, decodeTrap_of_not_service other]
  all_goals simp_all [decode, decodeTrap]

theorem Decodes.wellFormed {w : Word} {i : Instr} (h : Decodes w i) : i.wellFormed = true := by
  cases h
  case trap other => simp [Instr.wellFormed, other]
  all_goals rfl

/-- The canonical word of a well-formed instruction stands for it: each clause reads back what `encode` placed. -/
theorem decodes_encode {i : Instr} (h : i.wellFormed = true) : Decodes (encode i) i := by
  cases i with
  | trap v => exact .trap (by simp [encode]) (by simp [encode]) (by simpa [Instr.wellFormed] using h)
  | trapGetc | trapOut | trapPuts | trapIn | trapPutsp | trapHalt | rti | res => constructor <;> rfl
  | _ => constructor <;> simp [encode, regAt, Nat.testBit]

end Sys2Proof

namespace Sys2Proof.Proofs

/-- Settles O9: the canonical word stands for its instruction, and a word stands for what `decode` gives. -/
theorem decodeEncodeRoundTrip : Obligations.DecodeEncodeRoundTrip :=
  fun _ h => (decodes_encode h).decode_eq

end Sys2Proof.Proofs
end

section
/-! PROOFS. The bits an instruction's row looks at are determined by the instruction (spec/30_encoding.md R93, R94). -/

namespace Sys2Proof

/-- `v` and `w` have the same bits where `m` has ones. -/
def AgreeOn (m v w : Word) : Prop := v &&& m = w &&& m

/-- The word with ones at bits `lo+n-1 : lo` and 0 elsewhere. -/
def fieldMask (lo n : Nat) : Word := place (BitVec.allOnes n) lo

section
variable {v w m k : Word}

/-- The bits of a word under a field's mask are the field, put back in its place. -/
theorem and_fieldMask (w : Word) (lo n : Nat) : w &&& fieldMask lo n = place (field w lo n) lo := by
  apply BitVec.eq_of_getLsbD_eq
  intro i hi
  simp only [BitVec.getLsbD_and, fieldMask, getLsbD_place, field, BitVec.getLsbD_extractLsb', BitVec.getLsbD_allOnes]
  by_cases hlo : lo ≤ i
  · simp [hlo, hi, Nat.add_sub_cancel' hlo, Bool.and_comm]
  · simp [hlo]

theorem AgreeOn.of_field {lo n : Nat} {b : BitVec n} (hv : field v lo n = b) (hw : field w lo n = b) :
    AgreeOn (fieldMask lo n) v w := by
  rw [AgreeOn, and_fieldMask, and_fieldMask, hv, hw]

theorem AgreeOn.of_regAt {lo : Nat} {r : Reg} (hv : regAt v lo = r) (hw : regAt w lo = r) :
    AgreeOn (fieldMask lo 3) v w :=
  .of_field (b := r.toField) (by simp [← hv, regAt]) (by simp [← hw, regAt])

theorem field_one_of_bitAt {i : Nat} {b : Bool} (h : bitAt w i = b) : field w i 1 = BitVec.ofBool b := by
  subst h
  apply BitVec.eq_of_getLsbD_eq
  intro j hj
  simp [field, bitAt, Nat.lt_one_iff.1 hj]

theorem AgreeOn.of_bitAt {i : Nat} {b : Bool} (hv : bitAt v i = b) (hw : bitAt w i = b) :
    AgreeOn (fieldMask i 1) v w :=
  .of_field (field_one_of_bitAt hv) (field_one_of_bitAt hw)

theorem AgreeOn.or (hm : AgreeOn m v w) (hk : AgreeOn k v w) : AgreeOn (m ||| k) v w := by
  rw [AgreeOn, BitVec.and_or_distrib_left, hm, hk, ← BitVec.and_or_distrib_left]

theorem AgreeOn.of_eq (hm : AgreeOn m v w) (h : m = k) : AgreeOn k v w := h ▸ hm

end

/-- Words that stand for one instruction agree on the bits it looks at, which its fields cover. -/
theorem Decodes.agreeOn_examinedBits {v w : Word} {i : Instr} (hv : Decodes v i) (hw : Decodes w i) :
    AgreeOn (examinedBits i) v w := by
  cases hv with
  | br op hn hz hp hoff =>
    cases hw
    next op' hn' hz' hp' hoff' =>
      exact ((AgreeOn.of_field op op').or (.or (.of_bitAt hn hn') (.or (.of_bitAt hz hz')
        (.or (.of_bitAt hp hp') (.of_field hoff hoff'))))).of_eq rfl
  | addReg op form hdr hsr1 hsr2 | andReg op form hdr hsr1 hsr2 =>
    cases hw
    next op' form' hdr' hsr1' hsr2' =>
      exact ((AgreeOn.of_field op op').or (.or (.of_bitAt form form') (.or (.of_regAt hdr hdr')
        (.or (.of_regAt hsr1 hsr1') (.of_regAt hsr2 hsr2'))))).of_eq rfl
  | addImm op form hdr hsr1 himm | andImm op form hdr hsr1 himm =>
    cases hw
    next op' form' hdr' hsr1' himm' =>
      exact ((AgreeOn.of_field op op').or (.or (.of_bitAt form form') (.or (.of_regAt hdr hdr')
        (.or (.of_regAt hsr1 hsr1') (.of_field himm himm'))))).of_eq rfl
  | ld op hreg hoff | st op hreg hoff | ldi op hreg hoff | sti op hreg hoff | lea op hreg hoff =>
    cases hw
    next op' hreg' hoff' =>
      exact ((AgreeOn.of_field op op').or (.or (.of_regAt hreg hreg') (.of_field hoff hoff'))).of_eq rfl
  | jsr op form hoff =>
    cases hw
    next op' form' hoff' =>
      exact ((AgreeOn.of_field op op').or (.or (.of_bitAt form form') (.of_field hoff hoff'))).of_eq rfl
  | jsrr op form hbase =>
    cases hw
    next op' form' hbase' =>
      exact ((AgreeOn.of_field op op').or (.or (.of_bitAt form form') (.of_regAt hbase hbase'))).of_eq rfl
  | ldr op hreg hbase hoff | str op hreg hbase hoff =>
    cases hw
    next op' hreg' hbase' hoff' =>
      exact ((AgreeOn.of_field op op').or (.or (.of_regAt hreg hreg')
        (.or (.of_regAt hbase hbase') (.of_field hoff hoff')))).of_eq rfl
  | rti op | res op =>
    cases hw
    next op' => exact (AgreeOn.of_field op op').of_eq rfl
  | not op hdr hsr =>
    cases hw
    next op' hdr' hsr' =>
      exact ((AgreeOn.of_field op op').or (.or (.of_regAt hdr hdr') (.of_regAt hsr hsr'))).of_eq rfl
  | jmp op hbase =>
    cases hw
    next op' hbase' =>
      exact ((AgreeOn.of_field op op').or (.of_regAt hbase hbase')).of_eq rfl
  | trapGetc op vec | trapOut op vec | trapPuts op vec | trapIn op vec | trapPutsp op vec | trapHalt op vec =>
    cases hw
    next op' vec' =>
      exact ((AgreeOn.of_field op op').or (.of_field vec vec')).of_eq rfl
  | trap op vec =>
    cases hw
    next op' vec' _ =>
      exact ((AgreeOn.of_field op op').or (.of_field vec vec')).of_eq rfl

end Sys2Proof

namespace Sys2Proof.Proofs

/-- Settles O10: a word and the canonical word of what it stands for stand for one instruction. -/
theorem encodeOfDecodedWord : Obligations.EncodeOfDecodedWord := by
  intro w
  have hw : Decodes w (decode w) := decodes_decode w
  have hcanonical : Decodes (encode (decode w)) (decode w) := decodes_encode hw.wellFormed
  exact ⟨hw.wellFormed, hcanonical.decode_eq, hcanonical.agreeOn_examinedBits hw⟩

end Sys2Proof.Proofs
end

section
/-! PROOFS. The condition codes of a value, and the frame of `setcc` (spec/40_fetch_decode.md R114). -/

namespace Sys2Proof.Machine

theorem ccOf_zero : ccOf 0 = ccZ := if_pos rfl

theorem ccOf_of_ne_zero {v : Word} (h : v ≠ 0) : ccOf v = if v.msb then ccN else ccP := if_neg h

/-- A value from 0x8000 on has its sign bit set; 0 is not among them. -/
theorem ccOf_of_negative {v : Word} (h : 0x8000 ≤ v.toNat) : ccOf v = ccN := by
  have hne : v ≠ 0 := by rintro rfl; simp at h
  have hmsb : v.msb = true := by simpa [BitVec.msb_eq_decide] using h
  rw [ccOf_of_ne_zero hne, if_pos hmsb]

theorem ccOf_of_positive {v : Word} (hlo : 1 ≤ v.toNat) (hhi : v.toNat ≤ 0x7FFF) : ccOf v = ccP := by
  have hne : v ≠ 0 := by rintro rfl; simp at hlo
  have hmsb : ¬v.msb = true := by simpa [BitVec.msb_eq_decide] using Nat.lt_succ_of_le hhi
  rw [ccOf_of_ne_zero hne, if_neg hmsb]

end Sys2Proof.Machine

namespace Sys2Proof.Proofs

open Sys2Proof.Machine

theorem regsKept_setcc (s : State) (v : Word) : RegsKept s (s.setcc v) [] :=
  fun r _ => s.setcc_reg v r

theorem outsideKept_setcc (s : State) (v : Word) : OutsideKept s (s.setcc v) :=
  ⟨fun a _ => congrArg (Memory.read · a) (s.setcc_mem v), s.setcc_kbq v, s.setcc_outLog v⟩

theorem controlKept_setcc (s : State) (v : Word) : ControlKept s (s.setcc v) :=
  ⟨s.setcc_run v, s.setcc_haltCause v, s.setcc_waiting v⟩

theorem launchKept_setcc (s : State) (v : Word) : LaunchKept s (s.setcc v) :=
  ⟨s.setcc_params v, s.setcc_image v, s.setcc_arrivals v⟩

/-- Settles O3: the code of each of the three ranges of values, three different codes, and the frame of `setcc`. -/
theorem setccRule : Obligations.SetccRule := by
  intro s v
  refine ⟨?zero, ?negative, ?positive, by decide, by decide, by decide,
    regsKept_setcc s v, s.setcc_pc v, outsideKept_setcc s v, controlKept_setcc s v, launchKept_setcc s v⟩
  case zero => rintro rfl; exact ccOf_zero
  case negative => exact ccOf_of_negative
  case positive => exact ccOf_of_positive

end Sys2Proof.Proofs
end

section
/-! PROOFS. The instruction cycle of a ready core (spec/40_fetch_decode.md R110, R111). -/

namespace Sys2Proof.Machine

/-- A fetch is the ordinary read at PC, then the increment: the read itself leaves PC alone. -/
theorem State.fetch_of_memRead {s u : State} {ir : Word} (h : s.memRead s.pc = (ir, u)) :
    s.fetch = (ir, { u with pc := s.pc + 1 }) := by
  have hpc : u.pc = s.pc := by simpa [h] using s.memRead_pc s.pc
  simp only [State.fetch, h, hpc]

end Sys2Proof.Machine

namespace Sys2Proof.Proofs

open Sys2Proof.Machine

/-- Settles O42: a ready core's step executes what it fetched, in the state the fetch leaves. -/
theorem stepRunsTheDecodedInstruction : Obligations.StepRunsTheDecodedInstruction := by
  intro s u ir hready hread
  rw [step_ready s hready, State.fetch_of_memRead hread]

end Sys2Proof.Proofs
end

section
/-! PROOFS. The frame of a value-producing instruction's one write of register and CC (spec/40_fetch_decode.md R114). -/

namespace Sys2Proof.Machine

theorem State.reg_writeResult_same (s : State) (dr : Reg) (v : Word) : (s.writeResult dr v).reg dr = v := by
  rw [State.reg_writeResult, if_pos rfl]

theorem State.reg_writeResult_of_ne (s : State) {dr r : Reg} (v : Word) (hr : r ≠ dr) :
    (s.writeResult dr v).reg r = s.reg r := by
  rw [State.reg_writeResult, if_neg hr]

end Sys2Proof.Machine

namespace Sys2Proof.Proofs

open Sys2Proof.Machine

theorem regsKept_writeResult (s : State) (dr : Reg) (v : Word) : RegsKept s (s.writeResult dr v) [dr] :=
  fun _ hr => s.reg_writeResult_of_ne v (List.ne_of_not_mem_cons hr)

theorem controlKept_writeResult (s : State) (dr : Reg) (v : Word) : ControlKept s (s.writeResult dr v) :=
  ⟨s.writeResult_run dr v, s.writeResult_haltCause dr v, s.writeResult_waiting dr v⟩

theorem launchKept_writeResult (s : State) (dr : Reg) (v : Word) : LaunchKept s (s.writeResult dr v) :=
  ⟨s.writeResult_params dr v, s.writeResult_image dr v, s.writeResult_arrivals dr v⟩

theorem onlyResult_writeResult (s : State) (dr : Reg) (v : Word) : OnlyResult s (s.writeResult dr v) dr v :=
  ⟨s.reg_writeResult_same dr v, s.writeResult_cc dr v, regsKept_writeResult s dr v, s.writeResult_pc dr v,
    controlKept_writeResult s dr v, launchKept_writeResult s dr v⟩

theorem outsideKept_writeResult (s : State) (dr : Reg) (v : Word) : OutsideKept s (s.writeResult dr v) :=
  ⟨fun a _ => congrArg (Memory.read · a) (s.writeResult_mem dr v), s.writeResult_kbq dr v, s.writeResult_outLog dr v⟩

/-- An instruction whose meaning is one `writeResult` has that result and no other effect. -/
theorem onlyResult_of_exec_eq_writeResult {i : Instr} {s : State} {dr : Reg} {v : Word}
    (h : exec i s = .next (s.writeResult dr v)) :
    ∃ t, exec i s = .next t ∧ OnlyResult s t dr v ∧ OutsideKept s t :=
  ⟨_, h, onlyResult_writeResult s dr v, outsideKept_writeResult s dr v⟩

end Sys2Proof.Proofs
end

section
/-! PROOFS. The operate instructions ADD, AND and NOT (spec/41_operate.md R120 to R124). -/

namespace Sys2Proof

/-- The bit that selects a form, read as a field of one bit (R8). -/
theorem bitAt_of_field_one {w : Word} {i : Nat} {b : Bool} (h : field w i 1 = BitVec.ofBool b) : bitAt w i = b :=
  BitVec.ofBool_eq_iff_eq.1 ((field_one_of_bitAt rfl).symm.trans h)

end Sys2Proof

namespace Sys2Proof.Machine

variable (dr sr sr1 sr2 : Reg) (imm : BitVec 5) (s : State)

theorem exec_addReg : exec (.addReg dr sr1 sr2) s = .next (s.writeResult dr (s.reg sr1 + s.reg sr2)) := rfl
theorem exec_addImm : exec (.addImm dr sr1 imm) s = .next (s.writeResult dr (s.reg sr1 + sext imm)) := rfl
theorem exec_andReg : exec (.andReg dr sr1 sr2) s = .next (s.writeResult dr (s.reg sr1 &&& s.reg sr2)) := rfl
theorem exec_andImm : exec (.andImm dr sr1 imm) s = .next (s.writeResult dr (s.reg sr1 &&& sext imm)) := rfl

/-- The complement of a word is its distance from 0xFFFF (R124). -/
theorem exec_not : exec (.not dr sr) s = .next (s.writeResult dr (0xFFFF - s.reg sr)) := by
  have hcomplement : 0xFFFF - s.reg sr = ~~~s.reg sr := BitVec.allOnes_sub_eq_not (s.reg sr)
  rw [hcomplement]
  rfl

end Sys2Proof.Machine

namespace Sys2Proof.Proofs

open Sys2Proof.Machine

/-- Settles O13: opcode 0001 with bit 5 clear, and the sum of two registers as the only result. -/
theorem addRegisterForm : Obligations.AddRegisterForm :=
  ⟨fun _ op form => (Decodes.addReg op (bitAt_of_field_one form) rfl rfl rfl).decode_eq,
    fun dr sr1 sr2 s => onlyResult_of_exec_eq_writeResult (exec_addReg dr sr1 sr2 s)⟩

/-- Settles O14: opcode 0001 with bit 5 set, and the sum with the extended immediate as the only result. -/
theorem addImmediateForm : Obligations.AddImmediateForm :=
  ⟨fun _ op form => (Decodes.addImm op (bitAt_of_field_one form) rfl rfl rfl).decode_eq,
    fun dr sr1 imm s => onlyResult_of_exec_eq_writeResult (exec_addImm dr sr1 imm s)⟩

/-- Settles O15: opcode 0101 with bit 5 clear, and the AND of two registers as the only result. -/
theorem andRegisterForm : Obligations.AndRegisterForm :=
  ⟨fun _ op form => (Decodes.andReg op (bitAt_of_field_one form) rfl rfl rfl).decode_eq,
    fun dr sr1 sr2 s => onlyResult_of_exec_eq_writeResult (exec_andReg dr sr1 sr2 s)⟩

/-- Settles O16: opcode 0101 with bit 5 set, and the AND with the extended immediate as the only result. -/
theorem andImmediateForm : Obligations.AndImmediateForm :=
  ⟨fun _ op form => (Decodes.andImm op (bitAt_of_field_one form) rfl rfl rfl).decode_eq,
    fun dr sr1 imm s => onlyResult_of_exec_eq_writeResult (exec_andImm dr sr1 imm s)⟩

/-- Settles O17: opcode 1001, and the distance from 0xFFFF as the only result. -/
theorem notInstruction : Obligations.NotInstruction :=
  ⟨fun _ op => (Decodes.not op rfl rfl).decode_eq,
    fun dr sr s => onlyResult_of_exec_eq_writeResult (exec_not dr sr s)⟩

end Sys2Proof.Proofs
end

section
/-! PROOFS. The frames of two changes one after the other: what either may write, both together may write. -/

namespace Sys2Proof.Machine

variable {s u t : State}

theorem RegsKept.append {first second : List Reg} (h : RegsKept s u first) (g : RegsKept u t second) :
    RegsKept s t (first ++ second) := by
  intro r hr
  obtain ⟨hfirst, hsecond⟩ := not_or.1 (mt List.mem_append.2 hr)
  exact (g r hsecond).trans (h r hfirst)

theorem CellsKept.append {first second : List Word} (h : CellsKept s u first) (g : CellsKept u t second) :
    CellsKept s t (first ++ second) := by
  intro a ha
  obtain ⟨hfirst, hsecond⟩ := not_or.1 (mt List.mem_append.2 ha)
  exact (g a hsecond).trans (h a hfirst)

theorem ConsoleKept.trans (h : ConsoleKept s u) (g : ConsoleKept u t) : ConsoleKept s t :=
  ⟨g.1.trans h.1, g.2.trans h.2⟩

theorem OutsideKept.trans (h : OutsideKept s u) (g : OutsideKept u t) : OutsideKept s t :=
  ⟨h.1.append g.1, h.2.trans g.2⟩

theorem ControlKept.trans (h : ControlKept s u) (g : ControlKept u t) : ControlKept s t := by
  obtain ⟨hrun, hcause, hwaiting⟩ := h
  obtain ⟨grun, gcause, gwaiting⟩ := g
  exact ⟨grun.trans hrun, gcause.trans hcause, gwaiting.trans hwaiting⟩

theorem LaunchKept.trans (h : LaunchKept s u) (g : LaunchKept u t) : LaunchKept s t := by
  obtain ⟨hparams, himage, harrivals⟩ := h
  obtain ⟨gparams, gimage, garrivals⟩ := g
  exact ⟨gparams.trans hparams, gimage.trans himage, garrivals.trans harrivals⟩

/-- A result made after a change that keeps PC and the core is a result of the state before that change. -/
theorem OnlyResult.of_coreKept {dr : Reg} {v : Word} (hpc : u.pc = s.pc) (hcore : CoreKept s u [])
    (h : OnlyResult u t dr v) : OnlyResult s t dr v := by
  obtain ⟨hregs, -, hcontrol, hlaunch⟩ := hcore
  obtain ⟨tresult, tcc, tregs, tpc, tcontrol, tlaunch⟩ := h
  exact ⟨tresult, tcc, hregs.append tregs, tpc.trans hpc, hcontrol.trans tcontrol, hlaunch.trans tlaunch⟩

/-- What the reads leave is still there after a change of the core alone. -/
theorem AfterReads.of_outsideKept {reads : List Word} (h : AfterReads s u u reads) (g : OutsideKept u t) :
    AfterReads s u t reads := by
  obtain ⟨-, -, hlog, hplain, hcells⟩ := h
  have ⟨gcells, gkbq, glog⟩ := g
  exact ⟨fun a => gcells a List.not_mem_nil, gkbq, glog.trans hlog, fun hr => (hplain hr).trans g,
    hcells.append gcells⟩

end Sys2Proof.Machine
end

section
/-! PROOFS. A load is one read and then the write of its result (spec/20_memory.md R51, spec/42_load_store.md R130, R132). -/

namespace Sys2Proof.Machine

theorem State.loadFrom_eq (s : State) (dr : Reg) (ea : Word) :
    s.loadFrom dr ea = (s.memRead ea).2.writeResult dr (s.memRead ea).1 := rfl

end Sys2Proof.Machine

namespace Sys2Proof.Proofs

open Sys2Proof.Machine

theorem controlKept_memRead (s : State) (a : Word) : ControlKept s (s.memRead a).2 :=
  ⟨s.memRead_run a, s.memRead_haltCause a, s.memRead_waiting a⟩

theorem launchKept_memRead (s : State) (a : Word) : LaunchKept s (s.memRead a).2 :=
  ⟨s.memRead_params a, s.memRead_image a, s.memRead_arrivals a⟩

theorem coreKept_memRead (s : State) (a : Word) : CoreKept s (s.memRead a).2 [] :=
  ⟨fun r _ => s.memRead_reg a r, s.memRead_cc a, controlKept_memRead s a, launchKept_memRead s a⟩

theorem onlyResult_loadFrom (s : State) (dr : Reg) (ea : Word) :
    OnlyResult s (s.loadFrom dr ea) dr (s.memRead ea).1 := by
  rw [State.loadFrom_eq]
  exact (onlyResult_writeResult _ dr _).of_coreKept (s.memRead_pc ea) (coreKept_memRead s ea)

theorem afterReads_loadFrom (s : State) (dr : Reg) (ea : Word) :
    AfterReads s (s.memRead ea).2 (s.loadFrom dr ea) [ea] := by
  rw [State.loadFrom_eq]
  exact (s.memRead_afterReads ea).of_outsideKept (outsideKept_writeResult _ dr _)

/-- An instruction whose meaning is one `loadFrom` has the word read as its result, and leaves what the read leaves. -/
theorem onlyResult_of_exec_eq_loadFrom {i : Instr} {s : State} {dr : Reg} {ea : Word}
    (h : exec i s = .next (s.loadFrom dr ea)) :
    ∃ t, exec i s = .next t ∧ OnlyResult s t dr (s.memRead ea).1 ∧ AfterReads s (s.memRead ea).2 t [ea] :=
  ⟨_, h, onlyResult_loadFrom s dr ea, afterReads_loadFrom s dr ea⟩

end Sys2Proof.Proofs
end

section
/-! PROOFS. LD, LDR, LEA, ST and STR (spec/42_load_store.md R130, R132, R133, R134, R136). -/

namespace Sys2Proof.Machine

variable (dr sr base : Reg) (s : State)

theorem exec_ld (off : BitVec 9) : exec (.ld dr off) s = .next (s.loadFrom dr (s.pc + sext off)) := rfl
theorem exec_ldr (off : BitVec 6) : exec (.ldr dr base off) s = .next (s.loadFrom dr (s.reg base + sext off)) := rfl
theorem exec_lea (off : BitVec 9) : exec (.lea dr off) s = .next (s.writeResult dr (s.pc + sext off)) := rfl
theorem exec_st (off : BitVec 9) : exec (.st sr off) s = .next (s.memWrite (s.pc + sext off) (s.reg sr)) := rfl
theorem exec_str (off : BitVec 6) :
    exec (.str sr base off) s = .next (s.memWrite (s.reg base + sext off) (s.reg sr)) := rfl

end Sys2Proof.Machine

namespace Sys2Proof.Proofs

open Sys2Proof.Machine

/-- Settles O18: opcode 0010, and a load from the PC-relative address. -/
theorem loadPcRelative : Obligations.LoadPcRelative :=
  ⟨fun _ op => (Decodes.ld op rfl rfl).decode_eq,
    fun dr off s => onlyResult_of_exec_eq_loadFrom (exec_ld dr s off)⟩

/-- Settles O20: opcode 0110, and a load from the address that the base register gives before DR is written. -/
theorem loadBaseOffset : Obligations.LoadBaseOffset :=
  ⟨fun _ op => (Decodes.ldr op rfl rfl rfl).decode_eq,
    fun dr base off s => onlyResult_of_exec_eq_loadFrom (exec_ldr dr base s off)⟩

/-- Settles O21: opcode 1110, and the PC-relative address as the only result; there is no read that could poll. -/
theorem loadEffectiveAddress : Obligations.LoadEffectiveAddress :=
  ⟨fun _ op => (Decodes.lea op rfl rfl).decode_eq,
    fun dr off s => onlyResult_of_exec_eq_writeResult (exec_lea dr s off)⟩

/-- Settles O22: opcode 0011, and the rule of a plain store at the PC-relative address. -/
theorem storePcRelative : Obligations.StorePcRelative :=
  ⟨fun _ op => (Decodes.st op rfl rfl).decode_eq,
    fun sr off s => ⟨_, exec_st sr s off, memWriteRule s (s.pc + sext off) (s.reg sr)⟩⟩

/-- Settles O24: opcode 0111, and the rule of a plain store at the base register plus the offset. -/
theorem storeBaseOffset : Obligations.StoreBaseOffset :=
  ⟨fun _ op => (Decodes.str op rfl rfl rfl).decode_eq,
    fun sr base off s => ⟨_, exec_str sr base s off, memWriteRule s (s.reg base + sext off) (s.reg sr)⟩⟩

end Sys2Proof.Proofs
end

section
/-! PROOFS. The frames of a jump, of the link write and of both together (spec/43_control.md R152 to R154). -/

namespace Sys2Proof.Machine

variable {s u t : State}

theorem CoreKept.append {first second : List Reg} (h : CoreKept s u first) (g : CoreKept u t second) :
    CoreKept s t (first ++ second) := by
  obtain ⟨hregs, hcc, hcontrol, hlaunch⟩ := h
  obtain ⟨gregs, gcc, gcontrol, glaunch⟩ := g
  exact ⟨hregs.append gregs, gcc.trans hcc, hcontrol.trans gcontrol, hlaunch.trans glaunch⟩

end Sys2Proof.Machine

namespace Sys2Proof.Proofs

open Sys2Proof.Machine

theorem controlKept_jumpTo (s : State) (a : Word) : ControlKept s (s.jumpTo a) :=
  ⟨s.jumpTo_run a, s.jumpTo_haltCause a, s.jumpTo_waiting a⟩

theorem launchKept_jumpTo (s : State) (a : Word) : LaunchKept s (s.jumpTo a) :=
  ⟨s.jumpTo_params a, s.jumpTo_image a, s.jumpTo_arrivals a⟩

theorem coreKept_jumpTo (s : State) (a : Word) : CoreKept s (s.jumpTo a) [] :=
  ⟨fun r _ => s.jumpTo_reg a r, s.jumpTo_cc a, controlKept_jumpTo s a, launchKept_jumpTo s a⟩

theorem outsideKept_jumpTo (s : State) (a : Word) : OutsideKept s (s.jumpTo a) :=
  ⟨fun c _ => congrArg (Memory.read · c) (s.jumpTo_mem a), s.jumpTo_kbq a, s.jumpTo_outLog a⟩

theorem regsKept_link (s : State) : RegsKept s s.link [.r7] :=
  fun r hr => (s.reg_link r).trans (if_neg (List.ne_of_not_mem_cons hr))

theorem controlKept_link (s : State) : ControlKept s s.link :=
  ⟨s.link_run, s.link_haltCause, s.link_waiting⟩

theorem launchKept_link (s : State) : LaunchKept s s.link :=
  ⟨s.link_params, s.link_image, s.link_arrivals⟩

theorem coreKept_link (s : State) : CoreKept s s.link [.r7] :=
  ⟨regsKept_link s, s.link_cc, controlKept_link s, launchKept_link s⟩

theorem outsideKept_link (s : State) : OutsideKept s s.link :=
  ⟨fun c _ => congrArg (Memory.read · c) s.link_mem, s.link_kbq, s.link_outLog⟩

theorem coreKept_link_jumpTo (s : State) (a : Word) : CoreKept s (s.link.jumpTo a) [.r7] :=
  (coreKept_link s).append (coreKept_jumpTo s.link a)

theorem outsideKept_link_jumpTo (s : State) (a : Word) : OutsideKept s (s.link.jumpTo a) :=
  (outsideKept_link s).trans (outsideKept_jumpTo s.link a)

/-- The jump leaves the link where it was written. -/
theorem reg_r7_link_jumpTo (s : State) (a : Word) : (s.link.jumpTo a).reg .r7 = s.pc := by
  rw [State.jumpTo_reg, State.reg_link, if_pos rfl]

end Sys2Proof.Proofs
end

section
/-! PROOFS. BR, JMP, JSR and JSRR (spec/43_control.md R150 to R154). -/

namespace Sys2Proof.Machine

theorem branchTaken_iff (n z p : Bool) (cc : BitVec 3) :
    branchTaken n z p cc = true ↔ (n = true ∧ cc = ccN) ∨ (z = true ∧ cc = ccZ) ∨ (p = true ∧ cc = ccP) := by
  simp only [branchTaken, Bool.or_eq_true, Bool.and_eq_true, decide_eq_true_eq, or_assoc]

variable (base : Reg) (s : State)

/-- A branch that is not taken is a jump to the PC it has already. -/
theorem exec_br (n z p : Bool) (off : BitVec 9) :
    exec (.br n z p off) s = .next (s.jumpTo (if branchTaken n z p s.cc then s.pc + sext off else s.pc)) :=
  congrArg Host.Outcome.next (apply_ite s.jumpTo (branchTaken n z p s.cc = true) (s.pc + sext off) s.pc).symm

theorem exec_jmp : exec (.jmp base) s = .next (s.jumpTo (s.reg base)) := rfl
theorem exec_jsr (off : BitVec 11) : exec (.jsr off) s = .next (s.link.jumpTo (s.pc + sext off)) := rfl

/-- The base is read after the link write, which only R7 shows (R154). -/
theorem exec_jsrr : exec (.jsrr base) s = .next (s.link.jumpTo (if base = .r7 then s.pc else s.reg base)) := by
  rw [← State.reg_link]
  rfl

end Sys2Proof.Machine

namespace Sys2Proof.Proofs

open Sys2Proof.Machine

/-- Settles O25: opcode 0000, and a jump whose target is the branch's when a flag matches and the PC itself otherwise. -/
theorem conditionalBranch : Obligations.ConditionalBranch := by
  refine ⟨fun _ op => (Decodes.br op rfl rfl rfl rfl).decode_eq, fun n z p off s =>
    ⟨_, exec_br s n z p off, ?taken, ?notTaken, coreKept_jumpTo s _, outsideKept_jumpTo s _⟩⟩
  case taken => exact fun h => if_pos ((branchTaken_iff n z p s.cc).2 h)
  case notTaken => exact fun h => if_neg (mt (branchTaken_iff n z p s.cc).1 h)

/-- Settles O26: opcode 1100, RET's word among them, and a jump to the base register. -/
theorem jumpThroughRegister : Obligations.JumpThroughRegister :=
  ⟨fun _ op => (Decodes.jmp op rfl).decode_eq, by decide,
    fun base s => ⟨_, exec_jmp base s, s.jumpTo_pc _, coreKept_jumpTo s _, outsideKept_jumpTo s _⟩⟩

/-- Settles O27: opcode 0100 with bit 11 set, and the link followed by the PC-relative jump. -/
theorem jumpToSubroutine : Obligations.JumpToSubroutine :=
  ⟨fun _ op form => (Decodes.jsr op (bitAt_of_field_one form) rfl).decode_eq,
    fun off s => ⟨_, exec_jsr s off, reg_r7_link_jumpTo s _, s.link.jumpTo_pc _,
      coreKept_link_jumpTo s _, outsideKept_link_jumpTo s _⟩⟩

/-- Settles O28: opcode 0100 with bit 11 clear, and the link followed by a jump to the base, which R7's link has replaced
when the base is R7. -/
theorem jumpToSubroutineThroughRegister : Obligations.JumpToSubroutineThroughRegister :=
  ⟨fun _ op form => (Decodes.jsrr op (bitAt_of_field_one form) rfl).decode_eq,
    fun base s => ⟨_, exec_jsrr base s, reg_r7_link_jumpTo s _, fun h => if_neg h, fun h => if_pos h,
      coreKept_link_jumpTo s _, outsideKept_link_jumpTo s _⟩⟩

end Sys2Proof.Proofs
end

section
/-! PROOFS. What the vector of a TRAP selects (spec/30_encoding.md R91, spec/44_trap.md R160, R167). -/

namespace Sys2Proof

theorem isServiceVector_eq_false_iff {v : BitVec 8} :
    isServiceVector v = false ↔ v.toNat < 0x20 ∨ 0x25 < v.toNat := by
  simp only [isServiceVector, Bool.and_eq_false_iff, decide_eq_false_iff_not, Nat.not_le]

/-- The six vectors of the services are all there are from 0x20 to 0x25. -/
theorem isServiceVector_eq_false_of_ne {v : BitVec 8} (getc : v ≠ 0x20) (out : v ≠ 0x21) (puts : v ≠ 0x22)
    (input : v ≠ 0x23) (putsp : v ≠ 0x24) (halt : v ≠ 0x25) : isServiceVector v = false := by
  rw [isServiceVector_eq_false_iff]
  bv_omega

/-- Opcode 1111, case by case of the vector: bits 11:8 are not looked at (R160). -/
theorem decode_trap {w : Word} {v : BitVec 8} (op : field w 12 4 = 15) (vec : field w 0 8 = v) : decode w =
    if v = 0x20 then .trapGetc else if v = 0x21 then .trapOut else if v = 0x22 then .trapPuts
    else if v = 0x23 then .trapIn else if v = 0x24 then .trapPutsp else if v = 0x25 then .trapHalt else .trap v := by
  split_ifs with getc out puts input putsp halt
  · exact (Decodes.trapGetc op (vec.trans getc)).decode_eq
  · exact (Decodes.trapOut op (vec.trans out)).decode_eq
  · exact (Decodes.trapPuts op (vec.trans puts)).decode_eq
  · exact (Decodes.trapIn op (vec.trans input)).decode_eq
  · exact (Decodes.trapPutsp op (vec.trans putsp)).decode_eq
  · exact (Decodes.trapHalt op (vec.trans halt)).decode_eq
  · exact (Decodes.trap op vec (isServiceVector_eq_false_of_ne getc out puts input putsp halt)).decode_eq

end Sys2Proof
end

section
/-! PROOFS. The part every TRAP has in common: the link write, and what the service after it leaves alone
(spec/44_trap.md R160, R167, R168). -/

namespace Sys2Proof.Machine

/-- What a service leaves alone, `written` being the registers it may write: PC, the launch arguments, all memory but
the two device cells, and CC unless R0 is among the registers (R160: GETC and IN write both, the others neither). -/
structure ServiceFrame (s t : State) (written : List Reg) : Prop where
  regs : RegsKept s t written
  pc : t.pc = s.pc
  cc : .r0 ∉ written → t.cc = s.cc
  cells : CellsKept s t [s.params.kbsrAddr, s.params.kbdrAddr]
  launch : LaunchKept s t

variable {s u t : State}

theorem RegsKept.mono {fewer more : List Reg} (h : RegsKept s t fewer) (hsub : fewer ⊆ more) : RegsKept s t more :=
  fun r hr => h r (mt (@hsub r) hr)

theorem ServiceFrame.refl (s : State) : ServiceFrame s s [] :=
  ⟨fun _ _ => rfl, rfl, fun _ => rfl, fun _ _ => rfl, rfl, rfl, rfl⟩

theorem ServiceFrame.append {first second : List Reg} (h : ServiceFrame s u first) (g : ServiceFrame u t second) :
    ServiceFrame s t (first ++ second) where
  regs := h.regs.append g.regs
  pc := g.pc.trans h.pc
  cc := fun hr0 => by
    obtain ⟨hfirst, hsecond⟩ := not_or.1 (mt List.mem_append.2 hr0)
    exact (g.cc hsecond).trans (h.cc hfirst)
  cells := fun a ha => (g.cells a (h.launch.1 ▸ ha)).trans (h.cells a ha)
  launch := h.launch.trans g.launch

theorem StringFrame.serviceFrame (h : StringFrame s t) : ServiceFrame s t [] where
  regs := fun r _ => congrArg (Regs.get · r) h.regs
  pc := h.pc
  cc := fun _ => h.cc
  cells := h.cells
  launch := ⟨h.params, h.image, h.arrivals⟩

variable (s : State)

theorem serviceFrame_link : ServiceFrame s s.link [.r7] where
  regs := Proofs.regsKept_link s
  pc := s.link_pc
  cc := fun _ => s.link_cc
  cells := fun _ _ => rfl
  launch := Proofs.launchKept_link s

theorem serviceFrame_putString (bs : List Byte) : ServiceFrame s (s.putString bs) [] :=
  ⟨fun r _ => s.putString_reg bs r, s.putString_pc bs, fun _ => s.putString_cc bs, fun _ _ => rfl, rfl, rfl, rfl⟩

theorem serviceFrame_halt (cause : HaltCause) : ServiceFrame s (s.halt cause) [] :=
  ⟨fun r _ => s.halt_reg cause r, s.halt_pc cause, fun _ => s.halt_cc cause, fun _ _ => rfl, rfl, rfl, rfl⟩

/-- With a character or without one, GETC and IN write no register but R0 (R161, R164, R169). -/
theorem serviceFrame_finishInput (service : InputService) : ServiceFrame s (s.finishInput service) [.r0] := by
  cases hq : s.kbq with
  | nil =>
    rw [finishInput_nil s service hq]
    exact ⟨fun _ _ => rfl, rfl, fun _ => rfl, fun _ _ => rfl, rfl, rfl, rfl⟩
  | cons c rest =>
    rw [finishInput_cons s service c rest hq]
    exact ⟨Proofs.regsKept_writeResult _ .r0 (zext c), rfl, fun hr0 => absurd (List.mem_singleton_self _) hr0,
      fun _ _ => rfl, rfl, rfl, rfl⟩

theorem exec_trapGetc : exec .trapGetc s = .next (s.link.finishInput .getc) := rfl
theorem exec_trapOut : exec .trapOut s = .next (s.link.put (lowByte (s.link.reg .r0))) := rfl
theorem exec_trapIn : exec .trapIn s = .next ((s.link.putString s.params.inPrompt).finishInput .input) := rfl
theorem exec_trapHalt : exec .trapHalt s = .next ((s.link.putString s.params.haltNotice).halt .trapHalt) := rfl
theorem exec_trap (v : BitVec 8) : exec (.trap v) s = .next s.link := rfl

/-- PUTS completes and keeps every register, for it walks the string with a pointer of its own (R163; D7). -/
theorem exec_trapPuts_frame : ∃ t, exec .trapPuts s = .next t ∧ ServiceFrame s.link t [] := by
  obtain ⟨t, hexec, hloop⟩ := execTrapPuts_next s
  exact ⟨t, hexec, (putsLoop_frame hloop).serviceFrame⟩

/-- PUTSP completes and keeps every register, for it walks the string with a pointer of its own (R165; D7). -/
theorem exec_trapPutsp_frame : ∃ t, exec .trapPutsp s = .next t ∧ ServiceFrame s.link t [] := by
  obtain ⟨t, hexec, hloop⟩ := execTrapPutsp_next s
  exact ⟨t, hexec, (putspLoop_frame hloop).serviceFrame⟩

/-- Every TRAP completes with the link write and a service that writes R0 for GETC and IN, and no register otherwise. -/
theorem exec_trap_cases {i : Instr}
    (hi : i ∈ [.trapGetc, .trapOut, .trapPuts, .trapIn, .trapPutsp, .trapHalt] ∨ ∃ v, i = .trap v) :
    ∃ t, exec i s = .next t ∧
      (ServiceFrame s.link t [] ∨ ((i = .trapGetc ∨ i = .trapIn) ∧ ServiceFrame s.link t [.r0])) := by
  simp only [List.mem_cons, List.not_mem_nil, or_false] at hi
  obtain (rfl | rfl | rfl | rfl | rfl | rfl) | ⟨v, rfl⟩ := hi
  · exact ⟨_, exec_trapGetc s, .inr ⟨.inl rfl, serviceFrame_finishInput _ .getc⟩⟩
  · exact ⟨_, exec_trapOut s, .inl (StringFrame.put _ _).serviceFrame⟩
  · exact (exec_trapPuts_frame s).imp fun _ h => h.imp_right .inl
  · exact ⟨_, exec_trapIn s, .inr ⟨.inr rfl,
      (serviceFrame_putString s.link _).append (serviceFrame_finishInput _ .input)⟩⟩
  · exact (exec_trapPutsp_frame s).imp fun _ h => h.imp_right .inl
  · exact ⟨_, exec_trapHalt s, .inl ((serviceFrame_putString s.link _).append (serviceFrame_halt _ .trapHalt))⟩
  · exact ⟨_, exec_trap s v, .inl (.refl s.link)⟩

theorem reg_r7_link : s.link.reg .r7 = s.pc :=
  (s.reg_link .r7).trans (if_pos rfl)

end Sys2Proof.Machine

namespace Sys2Proof.Proofs

open Sys2Proof.Machine

/-- Settles O29: the vector selects the row, and the link write is followed by a service that writes R0 and CC, in GETC
and IN, or no register at all. -/
theorem trapCommonPart : Obligations.TrapCommonPart := by
  refine ⟨fun _ _ op vec => decode_trap op vec, fun i s u hi hexec => ?_⟩
  obtain ⟨t, hnext, hservice⟩ := exec_trap_cases s hi
  obtain rfl : t = u := Host.Outcome.next.inj (hnext.symm.trans hexec)
  obtain hquiet | ⟨hinput, hr0⟩ := hservice
  · have frame : ServiceFrame s t [.r7] := (serviceFrame_link s).append hquiet
    exact ⟨(hquiet.regs .r7 (by decide)).trans (reg_r7_link s), frame.pc,
      frame.regs.mono (List.subset_append_left _ [Reg.r0]),
      fun _ _ => ⟨frame.regs, frame.cc (by decide)⟩, frame.cells, frame.launch⟩
  · have frame : ServiceFrame s t [.r7, .r0] := (serviceFrame_link s).append hr0
    exact ⟨(hr0.regs .r7 (by decide)).trans (reg_r7_link s), frame.pc, frame.regs,
      fun hgetc hin => absurd hinput (not_or.2 ⟨hgetc, hin⟩), frame.cells, frame.launch⟩

/-- Settles O30: outside the six service vectors the generic row is selected, whose meaning is the link write alone. -/
theorem undefinedTrapVector : Obligations.UndefinedTrapVector :=
  ⟨fun _ _ op vec hv => (Decodes.trap op vec (isServiceVector_eq_false_iff.2 hv)).decode_eq,
    fun v s _ => ⟨_, exec_trap s v, reg_r7_link s, s.link_pc, coreKept_link s, outsideKept_link s⟩⟩

end Sys2Proof.Proofs
end

section
/-! PROOFS. What a boot leaves in memory and in the core (spec/70_reset_and_hazards.md R222, R223; D18; log entry 16). -/

namespace Sys2Proof.Machine

/-- A word whose address fits stands at its place from the origin on. -/
theorem storeWords_read_placed (words : List Word) (origin : Nat) (m : Memory) {i : Nat} (hi : i < words.length)
    (hfits : origin + i < 65536) :
    (storeWords origin words m).read (BitVec.ofNat 16 (origin + i)) = words[i] := by
  have haddr : (BitVec.ofNat 16 (origin + i)).toNat = origin + i :=
    (BitVec.toNat_ofNat _ 16).trans (Nat.mod_eq_of_lt hfits)
  rw [storeWords_read, dif_pos (by omega)]
  simp only [haddr, Nat.add_sub_cancel_left]

/-- A cell before the origin or past the last word is kept: a word that does not fit is dropped, not wrapped around. -/
theorem storeWords_read_outside (words : List Word) (origin : Nat) (m : Memory) {a : Word}
    (ha : a.toNat < origin ∨ origin + words.length ≤ a.toNat) :
    (storeWords origin words m).read a = m.read a := by
  rw [storeWords_read, dif_neg (by omega)]

/-- The boot from an image of whole words: PC, the words' cells and the run state are all it changes. -/
theorem State.boot_imageBytes (s : State) {origin : Word} {words : List Word}
    (himage : s.image = some (imageBytes origin ++ words.flatMap imageBytes)) :
    s.boot = { s with pc := origin, mem := storeWords origin.toNat words s.mem, run := .running } := by
  have hbytes : s.image = some (highByte origin :: lowByte origin :: words.flatMap imageBytes) := himage
  simp only [State.boot, hbytes, wordOfBytes_imageBytes, imageWords_imageBytes]

end Sys2Proof.Machine

namespace Sys2Proof.Proofs

open Sys2Proof.Machine

/-- Settles O45: the step of an idle core is its boot, whose stores put each word that fits in its place and keep every
other cell. -/
theorem bootPlacesTheImage : Obligations.BootPlacesTheImage := by
  intro s origin words hidle himage
  refine ⟨_, (step_idle s hidle).trans (congrArg _ (s.boot_imageBytes himage)), rfl, rfl, ?placed, ?outside,
    fun _ _ => rfl, rfl, rfl, rfl, ⟨rfl, rfl⟩, rfl, rfl, rfl⟩
  case placed => exact fun _ hi hfits => storeWords_read_placed words origin.toNat s.mem hi hfits
  case outside => exact fun _ ha => storeWords_read_outside words origin.toNat s.mem ha

end Sys2Proof.Proofs
end

section
/-! PROOFS. The instruction a word stands for is determined by the bits its row looks at, and its row is the first of
the opcode table that the word matches (spec/30_encoding.md R93, R95). -/

namespace Sys2Proof

section
variable {m v w : Word}

@[simp] theorem field_and (x y : Word) (lo n : Nat) : field (x &&& y) lo n = field x lo n &&& field y lo n :=
  BitVec.extractLsb'_and

/-- A field the mask covers is read back from the masked word. -/
theorem field_of_covered {lo n : Nat} (w : Word) (hcover : field m lo n = BitVec.allOnes n) :
    field (w &&& m) lo n = field w lo n := by
  rw [field_and, hcover, BitVec.and_allOnes]

theorem AgreeOn.field_eq {lo n : Nat} {b : BitVec n} (h : AgreeOn m w v) (hw : field w lo n = b)
    (hcover : field m lo n = BitVec.allOnes n := by rw [examinedBits]; rfl) : field v lo n = b := by
  rw [← hw, ← field_of_covered v hcover, ← field_of_covered w hcover, h]

theorem AgreeOn.regAt_eq {lo : Nat} {r : Reg} (h : AgreeOn m w v) (hw : regAt w lo = r)
    (hcover : field m lo 3 = BitVec.allOnes 3 := by rw [examinedBits]; rfl) : regAt v lo = r := by
  rw [← hw, regAt, regAt, h.field_eq rfl hcover]

theorem AgreeOn.bitAt_eq {i : Nat} {b : Bool} (h : AgreeOn m w v) (hw : bitAt w i = b)
    (hcover : field m i 1 = BitVec.allOnes 1 := by rw [examinedBits]; rfl) : bitAt v i = b :=
  bitAt_of_field_one (h.field_eq (field_one_of_bitAt hw) hcover)

/-- A word that agrees on the examined bits stands for the same instruction: they cover every field of the row. -/
theorem Decodes.of_agreeOn {i : Instr} (hw : Decodes w i) (h : AgreeOn (examinedBits i) w v) : Decodes v i := by
  cases hw with
  | br op hn hz hp hoff =>
    exact .br (h.field_eq op) (h.bitAt_eq hn) (h.bitAt_eq hz) (h.bitAt_eq hp) (h.field_eq hoff)
  | addReg op form hdr hsr1 hsr2 =>
    exact .addReg (h.field_eq op) (h.bitAt_eq form) (h.regAt_eq hdr) (h.regAt_eq hsr1) (h.regAt_eq hsr2)
  | addImm op form hdr hsr1 himm =>
    exact .addImm (h.field_eq op) (h.bitAt_eq form) (h.regAt_eq hdr) (h.regAt_eq hsr1) (h.field_eq himm)
  | ld op hdr hoff => exact .ld (h.field_eq op) (h.regAt_eq hdr) (h.field_eq hoff)
  | st op hsr hoff => exact .st (h.field_eq op) (h.regAt_eq hsr) (h.field_eq hoff)
  | jsr op form hoff => exact .jsr (h.field_eq op) (h.bitAt_eq form) (h.field_eq hoff)
  | jsrr op form hbase => exact .jsrr (h.field_eq op) (h.bitAt_eq form) (h.regAt_eq hbase)
  | andReg op form hdr hsr1 hsr2 =>
    exact .andReg (h.field_eq op) (h.bitAt_eq form) (h.regAt_eq hdr) (h.regAt_eq hsr1) (h.regAt_eq hsr2)
  | andImm op form hdr hsr1 himm =>
    exact .andImm (h.field_eq op) (h.bitAt_eq form) (h.regAt_eq hdr) (h.regAt_eq hsr1) (h.field_eq himm)
  | ldr op hdr hbase hoff => exact .ldr (h.field_eq op) (h.regAt_eq hdr) (h.regAt_eq hbase) (h.field_eq hoff)
  | str op hsr hbase hoff => exact .str (h.field_eq op) (h.regAt_eq hsr) (h.regAt_eq hbase) (h.field_eq hoff)
  | rti op => exact .rti (h.field_eq op)
  | not op hdr hsr => exact .not (h.field_eq op) (h.regAt_eq hdr) (h.regAt_eq hsr)
  | ldi op hdr hoff => exact .ldi (h.field_eq op) (h.regAt_eq hdr) (h.field_eq hoff)
  | sti op hsr hoff => exact .sti (h.field_eq op) (h.regAt_eq hsr) (h.field_eq hoff)
  | jmp op hbase => exact .jmp (h.field_eq op) (h.regAt_eq hbase)
  | res op => exact .res (h.field_eq op)
  | lea op hdr hoff => exact .lea (h.field_eq op) (h.regAt_eq hdr) (h.field_eq hoff)
  | trapGetc op vec => exact .trapGetc (h.field_eq op) (h.field_eq vec)
  | trapOut op vec => exact .trapOut (h.field_eq op) (h.field_eq vec)
  | trapPuts op vec => exact .trapPuts (h.field_eq op) (h.field_eq vec)
  | trapIn op vec => exact .trapIn (h.field_eq op) (h.field_eq vec)
  | trapPutsp op vec => exact .trapPutsp (h.field_eq op) (h.field_eq vec)
  | trapHalt op vec => exact .trapHalt (h.field_eq op) (h.field_eq vec)
  | trap op vec other => exact .trap (h.field_eq op) (h.field_eq vec) other

end

open Laws in
/-- The canonical word of every instruction lies in its row: the laws made per instruction, together. -/
theorem encode_matches_row (i : Instr) : EncodeRow.Statement i := by
  cases i with
  | br n z p off => exact EncodeRow.br n z p off
  | addReg dr sr1 sr2 => exact EncodeRow.addReg dr sr1 sr2
  | addImm dr sr1 imm => exact EncodeRow.addImm dr sr1 imm
  | ld dr off => exact EncodeRow.ld dr off
  | st sr off => exact EncodeRow.st sr off
  | jsr off => exact EncodeRow.jsr off
  | jsrr base => exact EncodeRow.jsrr base
  | andReg dr sr1 sr2 => exact EncodeRow.andReg dr sr1 sr2
  | andImm dr sr1 imm => exact EncodeRow.andImm dr sr1 imm
  | ldr dr base off => exact EncodeRow.ldr dr base off
  | str sr base off => exact EncodeRow.str sr base off
  | rti => exact EncodeRow.rti
  | not dr sr => exact EncodeRow.not dr sr
  | ldi dr off => exact EncodeRow.ldi dr off
  | sti sr off => exact EncodeRow.sti sr off
  | jmp base => exact EncodeRow.jmp base
  | res => exact EncodeRow.res
  | lea dr off => exact EncodeRow.lea dr off
  | trapGetc => exact EncodeRow.trapGetc
  | trapOut => exact EncodeRow.trapOut
  | trapPuts => exact EncodeRow.trapPuts
  | trapIn => exact EncodeRow.trapIn
  | trapPutsp => exact EncodeRow.trapPutsp
  | trapHalt => exact EncodeRow.trapHalt
  | trap v => exact EncodeRow.trap v

/-- Every bit a row tests is one its instructions look at. -/
theorem examinedBits_and_mask {i : Instr} {r : TableRow} (hr : opcodeTable[i.tableIndex]? = some r) :
    examinedBits i &&& r.mask = r.mask := by
  cases i <;> cases hr <;> rw [examinedBits] <;> rfl

/-- A word matches the row of its instruction, since it agrees there with the canonical word. -/
theorem matches_own_row {w : Word} {r : TableRow} (hr : opcodeTable[(decode w).tableIndex]? = some r) :
    w &&& r.mask = r.pattern := by
  obtain ⟨-, -, hagree⟩ := Proofs.encodeOfDecodedWord w
  calc w &&& r.mask = w &&& examinedBits (decode w) &&& r.mask := by rw [BitVec.and_assoc, examinedBits_and_mask hr]
    _ = encode (decode w) &&& examinedBits (decode w) &&& r.mask := by rw [hagree]
    _ = encode (decode w) &&& r.mask := by rw [BitVec.and_assoc, examinedBits_and_mask hr]
    _ = r.pattern := encode_matches_row (decode w) r hr

/-- Two rows that one word matches have the same pattern on the bits both test. -/
theorem patterns_agree_of_matches {w : Word} {r q : TableRow} (hr : w &&& r.mask = r.pattern)
    (hq : w &&& q.mask = q.pattern) : r.pattern &&& q.mask = q.pattern &&& r.mask := by
  rw [← hr, ← hq, BitVec.and_assoc, BitVec.and_assoc, BitVec.and_comm r.mask]

/-- No word matches two rows, but for the generic TRAP row and the six service rows before it. -/
theorem rows_disjoint : ∀ i < 25, ∀ j < i, ∀ r ∈ opcodeTable[i]?, ∀ q ∈ opcodeTable[j]?,
    r.pattern &&& q.mask = q.pattern &&& r.mask → i = 24 ∧ 18 ≤ j := by decide

/-- The service rows test the whole vector, and it is a service's. -/
theorem service_rows : ∀ j < 24, 18 ≤ j → ∀ q ∈ opcodeTable[j]?,
    field q.mask 0 8 = BitVec.allOnes 8 ∧ isServiceVector (field q.pattern 0 8) = true := by decide

theorem Instr.tableIndex_lt (i : Instr) : i.tableIndex < 25 := by cases i <;> simp [tableIndex]

/-- A word whose instruction has the generic TRAP row has no service's vector. -/
theorem not_service_of_tableIndex {w : Word} (h : (decode w).tableIndex = 24) :
    isServiceVector (field w 0 8) = false := by
  have hw := decodes_decode w
  cases hi : decode w with
  | trap v =>
    rw [hi] at hw
    cases hw with
    | trap _ vec other => rwa [vec]
  | _ => simp [hi, Instr.tableIndex] at h

end Sys2Proof

namespace Sys2Proof.Proofs

/-- Settles O12: the examined bits cover every field the instruction is made from. -/
theorem ignoredBitsDoNotMatter : Obligations.IgnoredBitsDoNotMatter :=
  fun w _ h => ((decodes_decode w).of_agreeOn h).decode_eq

/-- Settles O11: the word matches its own row, and an earlier row that it matched would be a service's, whose vector the
word does not have. -/
theorem decodeIsFirstTableMatch : Obligations.DecodeIsFirstTableMatch := by
  intro w
  have hi : (decode w).tableIndex < 25 := (decode w).tableIndex_lt
  have hown : w &&& opcodeTable[(decode w).tableIndex].mask = _ := matches_own_row (List.getElem?_eq_getElem hi)
  rw [List.findIdx?_eq_some_iff_getElem]
  refine ⟨hi, decide_eq_true hown, fun j hj hmatch => ?_⟩
  have hlen : j < opcodeTable.length := hj.trans hi
  have hother : w &&& opcodeTable[j].mask = opcodeTable[j].pattern := of_decide_eq_true hmatch
  obtain ⟨hgeneric, hservice⟩ := rows_disjoint _ hi j hj _ (List.getElem?_eq_getElem hi) _
    (List.getElem?_eq_getElem hlen) (patterns_agree_of_matches hown hother)
  obtain ⟨hcover, hvector⟩ := service_rows j (hgeneric ▸ hj) hservice _ (List.getElem?_eq_getElem hlen)
  rw [← hother, field_of_covered w hcover, not_service_of_tableIndex hgeneric] at hvector
  exact Bool.false_ne_true hvector

/-- Settles O8: sixteen words of the spec, decoded. -/
theorem decodeSampleWords : Obligations.DecodeSampleWords := by
  refine ⟨?_, ?_, ?_, ?_, ?_, ?_, ?_, ?_, ?_, ?_, ?_, ?_, ?_, ?_, ?_, ?_⟩ <;> decide

end Sys2Proof.Proofs
end

section
/-! PROOFS. What a read of memory gives and leaves, at KBSR_ADDR and elsewhere (spec/20_memory.md R51). -/

namespace Sys2Proof.Machine

@[simp] theorem toNat_zext (c : Byte) : (zext c).toNat = c.toNat := BitVec.toNat_setWidth_of_le (by decide)

/-- A character read at KBSR_ADDR shows as 0x8000, KBDR being another cell (D1). -/
theorem State.memRead_kbsr_hit (s : State) {c : Byte} {rest : List Byte} (hq : s.kbq = c :: rest)
    (hdiff : s.params.kbsrAddr ≠ s.params.kbdrAddr) : (s.memRead s.params.kbsrAddr).1 = 0x8000 := by
  rw [s.memRead_kbsr]
  exact (s.poll_hit c rest hq _).trans ((if_neg hdiff).trans (if_pos rfl))

theorem State.memRead_kbsr_state (s : State) : (s.memRead s.params.kbsrAddr).2 = s.poll := by rw [s.memRead_kbsr]

end Sys2Proof.Machine

namespace Sys2Proof.Proofs

open Sys2Proof.Machine

/-- With no character pending, a read of KBSR_ADDR changes no cell but the stored KBSR. -/
theorem cellsKept_memRead_kbsr_miss (s : State) (hq : s.kbq = []) :
    CellsKept s (s.memRead s.params.kbsrAddr).2 [s.params.kbsrAddr] := by
  intro a ha
  rw [s.memRead_kbsr_state, s.poll_miss hq, if_neg (List.ne_of_not_mem_cons ha)]

/-- Settles O6: a plain read, a poll that finds nothing and a poll that takes a character. -/
theorem memReadRule : Obligations.MemReadRule := by
  refine fun s => ⟨s.memRead_plain, fun hq => ?miss, fun c rest hq hdiff => ?hit⟩
  case miss =>
    have hword : (s.memRead s.params.kbsrAddr).1 = 0 := s.memRead_kbsr_miss hq
    refine ⟨_, Prod.ext hword rfl, hword, cellsKept_memRead_kbsr_miss s hq, s.memRead_pc _, coreKept_memRead s _,
      ?_, s.memRead_outLog _⟩
    simp [s.memRead_kbsr_state, hq]
  case hit =>
    have hword : (s.memRead s.params.kbsrAddr).1 = 0x8000 := s.memRead_kbsr_hit hq hdiff
    obtain ⟨-, -, -, -, hcells⟩ := s.memRead_afterReads s.params.kbsrAddr
    refine ⟨_, Prod.ext hword rfl, hword, ?_, ?_, s.memRead_outLog _, hcells, s.memRead_pc _, coreKept_memRead s _⟩
    · simp [s.memRead_kbsr_state, s.poll_hit c rest hq]
    · simp [s.memRead_kbsr_state, hq]

end Sys2Proof.Proofs
end

section
/-! PROOFS. LDI and STI: the pointer's read and then the access through it (spec/42_load_store.md R131, R135). -/

namespace Sys2Proof.Machine

variable (s : State)

theorem exec_ldi (dr : Reg) (off : BitVec 9) : exec (.ldi dr off) s =
    .next ((s.memRead (s.pc + sext off)).2.loadFrom dr (s.memRead (s.pc + sext off)).1) := rfl

/-- The pointer's read changes no register, so the word stored is the one the source held before it. -/
theorem exec_sti (sr : Reg) (off : BitVec 9) : exec (.sti sr off) s =
    .next ((s.memRead (s.pc + sext off)).2.memWrite (s.memRead (s.pc + sext off)).1 (s.reg sr)) := by
  rw [← s.memRead_reg (s.pc + sext off)]
  rfl

variable {s} {u v t : State}

/-- Two groups of reads one after the other, the parameters being the same for both. -/
theorem AfterReads.append {first second : List Word} (hparams : u.params = s.params) (h : AfterReads s u u first)
    (g : AfterReads u v t second) : AfterReads s v t (first ++ second) := by
  obtain ⟨-, -, hlog, hplain, hcells⟩ := h
  obtain ⟨gmem, gkbq, glog, gplain, gcells⟩ := g
  rw [hparams] at gplain gcells
  refine ⟨gmem, gkbq, glog.trans hlog, fun hreads => ?_, fun a ha => (gcells a ha).trans (hcells a ha)⟩
  obtain ⟨hfirst, hsecond⟩ := not_or.1 (mt List.mem_append.2 hreads)
  exact (hplain hfirst).trans (gplain hsecond)

end Sys2Proof.Machine

namespace Sys2Proof.Proofs

open Sys2Proof.Machine

/-- Settles O19: opcode 1010, and a load through the pointer, made after the pointer's own read. -/
theorem loadIndirect : Obligations.LoadIndirect := by
  refine ⟨fun _ op => (Decodes.ldi op rfl rfl).decode_eq, fun dr off s u v addr value hpointer hvalue => ?_⟩
  have hexec := exec_ldi s dr off
  have hpc := s.memRead_pc (s.pc + sext off)
  have hparams := s.memRead_params (s.pc + sext off)
  have hcore := coreKept_memRead s (s.pc + sext off)
  have hreads := s.memRead_afterReads (s.pc + sext off)
  rw [hpointer] at hexec hpc hparams hcore hreads
  have hresult := onlyResult_loadFrom u dr addr
  have hafter := afterReads_loadFrom u dr addr
  rw [hvalue] at hresult hafter
  exact ⟨_, hexec, hresult.of_coreKept hpc hcore, hreads.append hparams hafter⟩

/-- Settles O23: opcode 1011, and a plain store at the pointer, made after the pointer's read. -/
theorem storeIndirect : Obligations.StoreIndirect := by
  refine ⟨fun _ op => (Decodes.sti op rfl rfl).decode_eq, fun sr off s u addr hpointer => ?_⟩
  have hexec := exec_sti s sr off
  have hpc := s.memRead_pc (s.pc + sext off)
  have hcore := coreKept_memRead s (s.pc + sext off)
  have hreads := s.memRead_afterReads (s.pc + sext off)
  rw [hpointer] at hexec hpc hcore hreads
  obtain ⟨-, -, hlog, hplain, hcells⟩ := hreads
  have hstore : CellsKept u (u.memWrite addr (s.reg sr)) [addr] := cellsKept_memWrite u addr _
  refine ⟨_, hexec, u.read_memWrite_same addr _, hstore, rfl, hlog, fun hne => ?_, hcells.append hstore, hpc,
    hcore.append (coreKept_memWrite u addr _)⟩
  obtain ⟨hkept, hkbq, -⟩ := hplain (mt List.mem_singleton.1 (Ne.symm hne))
  exact ⟨hkept.append hstore, hkbq⟩

end Sys2Proof.Proofs
end

section
/-! PROOFS. The end of GETC and IN, and of their wait: the character they take and what they leave alone
(spec/44_trap.md R161, R164, R169). -/

namespace Sys2Proof.Machine

/-- D6: a character's upper byte is zero, so its flags are Z or P. -/
theorem ccOf_zext (c : Byte) : ccOf (zext c) = if c = 0 then ccZ else ccP := by
  split
  case isTrue hc => rw [hc]; rfl
  case isFalse hc =>
    have hpos : c.toNat ≠ 0 := fun h => hc (BitVec.eq_of_toNat_eq h)
    have hlt := c.isLt
    exact ccOf_of_positive (by rw [toNat_zext]; omega) (by rw [toNat_zext]; omega)

/-- `t` is `s` after `service` has taken `c` from the head of the queue and left `rest`. -/
structure TakesCharacter (s t : State) (service : InputService) (c : Byte) (rest : List Byte) : Prop where
  value : (t.reg .r0).toNat = c.toNat
  cc : t.cc = if c = 0 then ccZ else ccP
  kbq : t.kbq = rest
  waiting : t.waiting = none
  log : t.outLog = s.outLog ++ if service = .input then [c] else []
  cells : CellsKept s t []
  regs : RegsKept s t [.r0]
  pc : t.pc = s.pc
  run : t.run = s.run
  cause : t.haltCause = s.haltCause
  launch : LaunchKept s t

section
variable (s : State) (service : InputService)

theorem takesCharacter_finishInput {c : Byte} {rest : List Byte} (hq : s.kbq = c :: rest) :
    TakesCharacter s (s.finishInput service) service c rest := by
  rw [finishInput_cons s service c rest hq]
  exact ⟨toNat_zext c, ccOf_zext c, rfl, rfl, rfl, fun _ _ => rfl, Proofs.regsKept_writeResult _ .r0 (zext c), rfl, rfl,
    rfl, rfl, rfl, rfl⟩

@[simp] theorem State.finishInput_pc : (s.finishInput service).pc = s.pc := (serviceFrame_finishInput s service).pc

@[simp] theorem State.finishInput_run : (s.finishInput service).run = s.run := by
  cases hq : s.kbq with
  | nil => rw [finishInput_nil s service hq]
  | cons c rest => exact (takesCharacter_finishInput s service hq).run

@[simp] theorem State.finishInput_haltCause : (s.finishInput service).haltCause = s.haltCause := by
  cases hq : s.kbq with
  | nil => rw [finishInput_nil s service hq]
  | cons c rest => exact (takesCharacter_finishInput s service hq).cause

/-- A service that goes on waiting has found no character and has kept the link its TRAP wrote (R169). -/
theorem waitOk_finishInput (hrun : s.run = .running) (hlink : s.reg .r7 = s.pc) : (s.finishInput service).waitOk := by
  cases hq : s.kbq with
  | nil => rw [finishInput_nil s service hq]; exact .inr ⟨hrun, hq, hlink⟩
  | cons c rest => exact .inl (takesCharacter_finishInput s service hq).waiting

/-- A service that does not wait has set CC from the character it took. -/
theorem finishInput_cc_of_done (hdone : (s.finishInput service).waiting = none) :
    ∃ v, (s.finishInput service).cc = ccOf v := by
  cases hq : s.kbq with
  | nil => rw [finishInput_nil s service hq] at hdone; exact absurd hdone (Option.some_ne_none service)
  | cons c rest => rw [finishInput_cons s service c rest hq]; exact ⟨zext c, rfl⟩

/-- The registers GETC and IN write after the link are those the statements list for the whole TRAP. -/
theorem RegsKept.of_link {s t : State} (h : RegsKept s.link t [.r0]) :
    t.reg .r7 = s.pc ∧ RegsKept s t [.r0, .r7] :=
  ⟨(h .r7 (by decide)).trans (reg_r7_link s), ((Proofs.regsKept_link s).append h).mono (by decide)⟩

end

end Sys2Proof.Machine

namespace Sys2Proof.Proofs

open Sys2Proof.Machine

/-- Settles O31: after the link write the service takes the head of the queue, or waits. -/
theorem getcService : Obligations.GetcService := by
  refine ⟨fun s c rest hq => ?taken, fun s hq => ?waits⟩
  case taken =>
    have h := takesCharacter_finishInput s.link .getc hq
    obtain ⟨hlink, hregs⟩ := h.regs.of_link
    exact ⟨_, exec_trapGetc s, h.value, hlink, h.cc, h.kbq, h.waiting, h.log.trans (List.append_nil _), h.cells, hregs,
      h.pc, h.run, h.cause, h.launch⟩
  case waits =>
    refine ⟨_, (exec_trapGetc s).trans (congrArg _ (finishInput_nil s.link .getc hq)), ?_⟩
    exact ⟨rfl, reg_r7_link s, rfl, hq, rfl, fun _ _ => rfl, regsKept_link s, rfl, rfl, rfl, rfl, rfl, rfl⟩

/-- Settles O32: after link and prompt the service takes and echoes the head of the queue, or waits. -/
theorem inService : Obligations.InService := by
  refine ⟨fun s c rest hq => ?taken, fun s hq => ?waits⟩
  case taken =>
    have h := takesCharacter_finishInput (s.link.putString s.params.inPrompt) .input hq
    obtain ⟨hlink, hregs⟩ := RegsKept.of_link (s := s) h.regs
    exact ⟨_, exec_trapIn s, h.value, hlink, h.cc, h.kbq, h.waiting, h.log, h.cells, hregs, h.pc, h.run, h.cause,
      h.launch⟩
  case waits =>
    refine ⟨_, (exec_trapIn s).trans (congrArg _ (finishInput_nil (s.link.putString s.params.inPrompt) .input hq)), ?_⟩
    exact ⟨rfl, reg_r7_link s, rfl, hq, rfl, fun _ _ => rfl, regsKept_link s, rfl, rfl, rfl, rfl, rfl, rfl⟩

/-- Settles O33: a waiting core's step is the end of the service after the environment's turn. -/
theorem waitingForACharacter : Obligations.WaitingForACharacter := by
  intro s service hrun hwaiting
  have hstep := step_waiting s service hrun hwaiting
  refine ⟨fun hq => ?nothing, fun c rest hq => ?taken⟩
  case nothing =>
    rw [hstep, finishInput_nil s.arrive service hq]
    have hkbq : s.kbq = [] := (List.append_eq_nil_iff.1 hq).1
    exact congrArg _ (State.eq_of_fields _ _ rfl rfl rfl rfl rfl rfl (hq.trans hkbq.symm) rfl hwaiting.symm rfl rfl rfl)
  case taken =>
    have h := takesCharacter_finishInput s.arrive service hq
    obtain ⟨hparams, himage, harrivals⟩ := h.launch
    exact ⟨_, hstep, h.value, h.cc, h.kbq, h.waiting, h.log, h.cells, h.regs, h.pc, h.run.trans hrun, h.cause, hparams,
      himage, harrivals⟩

end Sys2Proof.Proofs
end

section
/-! PROOFS. OUT, HALT and the one exception: what they append to the log, and how the run ends
(spec/44_trap.md R162, R166, spec/60_exceptions.md R191). -/

namespace Sys2Proof.Machine

theorem exec_rti (s : State) : exec .rti s = .next ((s.putString s.params.diagRti).halt .unimplRti) := rfl
theorem exec_res (s : State) : exec .res s = .next ((s.putString s.params.diagRes).halt .unimplRes) := rfl

/-- The link write keeps R0, which OUT reads after it. -/
theorem reg_r0_link (s : State) : s.link.reg .r0 = s.reg .r0 := (s.reg_link .r0).trans (if_neg (by decide))

end Sys2Proof.Machine

namespace Sys2Proof.Proofs

open Sys2Proof.Machine

/-- Settles O34: the low byte of R0, which the link write has kept, is all that is appended. -/
theorem outService : Obligations.OutService := by
  intro s
  have hexec := exec_trapOut s
  rw [reg_r0_link] at hexec
  exact ⟨_, hexec, rfl, rfl, reg_r7_link s, rfl, coreKept_link s, fun _ _ => rfl⟩

/-- Settles O40: the link, the notice, and the halt with the cause's code 1. -/
theorem haltService : Obligations.HaltService :=
  fun s => ⟨_, exec_trapHalt s, rfl, rfl, rfl, rfl, reg_r7_link s, rfl, rfl, regsKept_link s, fun _ _ => rfl, rfl, rfl,
    rfl, rfl⟩

/-- Settles O41: opcodes 1000 and 1101, and the diagnostic and the halt with the causes' codes 2 and 3. -/
theorem unimplementedOpcodeEntry : Obligations.UnimplementedOpcodeEntry :=
  ⟨fun _ op => (Decodes.rti op).decode_eq, fun _ op => (Decodes.res op).decode_eq, fun s =>
    ⟨⟨_, exec_rti s, rfl, rfl, rfl, rfl, rfl, fun _ _ => rfl, fun _ _ => rfl, rfl, rfl, rfl, rfl, rfl⟩,
      ⟨_, exec_res s, rfl, rfl, rfl, rfl, rfl, fun _ _ => rfl, fun _ _ => rfl, rfl, rfl, rfl, rfl, rfl⟩⟩⟩

end Sys2Proof.Proofs
end

section
/-! PROOFS. What an instruction may write, by the lists of Safety.lean, as one frame that composes over the pieces of an
instruction's meaning (spec/10_state.md R21, R23, R31, spec/20_memory.md R56). -/

namespace Sys2Proof.Machine

/-- What a change may write besides PC and the control state: these general registers, CC, these memory cells beside the
two device cells, and the output log. -/
structure Writes where
  regs : List Reg
  cc : Bool
  cells : List Word
  log : Bool

def Writes.append (first second : Writes) : Writes :=
  ⟨first.regs ++ second.regs, first.cc || second.cc, first.cells ++ second.cells, first.log || second.log⟩

/-- What the rules let an instruction write at the state after the fetch. -/
def writesOf (i : Instr) (s : State) : Writes :=
  ⟨regsWritten i, writesCC i, (storeAddress i s).toList, writesConsole i⟩

/-- The change from `s` to `t` keeps to `w`, and to what no change does: it writes CC by R114's rule only, takes nothing
back from the log, takes characters from the head of the queue, and keeps memory canonical. -/
structure Within (w : Writes) (s t : State) : Prop where
  regs : RegsKept s t w.regs
  cc : t.cc = s.cc ∨ w.cc = true ∧ ∃ v, t.cc = ccOf v
  cells : CellsKept s t (s.params.kbsrAddr :: s.params.kbdrAddr :: w.cells)
  log : s.outLog <+: t.outLog
  quiet : w.log = false → t.outLog = s.outLog
  queue : t.kbq <:+ s.kbq
  launch : LaunchKept s t
  wf : s.mem.wf → t.mem.wf

theorem Within.append {first second : Writes} {s u t : State} (h : Within first s u) (g : Within second u t) :
    Within (first.append second) s t where
  regs := h.regs.append g.regs
  cc := by
    obtain gcc | ⟨gmay, gvalue⟩ := g.cc
    · exact h.cc.imp gcc.trans fun ⟨hmay, v, hvalue⟩ =>
        ⟨Bool.or_eq_true_iff.2 (.inl hmay), v, gcc.trans hvalue⟩
    · exact .inr ⟨Bool.or_eq_true_iff.2 (.inr gmay), gvalue⟩
  cells := by
    intro a ha
    simp only [Writes.append, List.mem_cons, List.mem_append, not_or] at ha
    obtain ⟨hkbsr, hkbdr, hfirst, hsecond⟩ := ha
    have hu : u.mem.read a = s.mem.read a := h.cells a (by simp [hkbsr, hkbdr, hfirst])
    have ht : t.mem.read a = u.mem.read a := g.cells a (by simp [h.launch.1, hkbsr, hkbdr, hsecond])
    exact ht.trans hu
  log := h.log.trans g.log
  quiet := fun hlog => by
    obtain ⟨hfirst, hsecond⟩ := Bool.or_eq_false_iff.1 hlog
    exact (g.quiet hsecond).trans (h.quiet hfirst)
  queue := g.queue.trans h.queue
  launch := h.launch.trans g.launch
  wf := g.wf ∘ h.wf

theorem StringFrame.within {s t : State} (h : StringFrame s t) (log : Bool) (quiet : log = false → t.outLog = s.outLog) :
    Within ⟨[], false, [], log⟩ s t where
  regs := fun r _ => congrArg (Regs.get · r) h.regs
  cc := .inl h.cc
  cells := h.cells
  log := h.log.imp fun _ => Eq.symm
  quiet := quiet
  queue := h.queue.imp fun _ => Eq.symm
  launch := ⟨h.params, h.image, h.arrivals⟩
  wf := h.wf

variable (s : State)

theorem within_memRead (a : Word) : Within ⟨[], false, [], false⟩ s (s.memRead a).2 :=
  (StringFrame.read s a).within false fun _ => s.memRead_outLog a

theorem within_fetch : Within ⟨[], false, [], false⟩ s s.fetch.2 :=
  have h := within_memRead s s.pc
  ⟨h.regs, h.cc, h.cells, h.log, h.quiet, h.queue, h.launch, h.wf⟩

theorem within_writeResult (dr : Reg) (v : Word) : Within ⟨[dr], true, [], false⟩ s (s.writeResult dr v) where
  regs := Proofs.regsKept_writeResult s dr v
  cc := .inr ⟨rfl, v, rfl⟩
  cells := fun _ _ => rfl
  log := List.prefix_rfl
  quiet := fun _ => rfl
  queue := List.suffix_rfl
  launch := Proofs.launchKept_writeResult s dr v
  wf := id

theorem within_loadFrom (dr : Reg) (ea : Word) : Within ⟨[dr], true, [], false⟩ s (s.loadFrom dr ea) :=
  (within_memRead s ea).append (within_writeResult _ dr _)

theorem within_memWrite (a v : Word) : Within ⟨[], false, [a], false⟩ s (s.memWrite a v) where
  regs := fun r _ => s.memWrite_reg a v r
  cc := .inl rfl
  cells := fun b hb => Proofs.cellsKept_memWrite s a v b fun hmem => hb (.tail _ (.tail _ hmem))
  log := List.prefix_rfl
  quiet := fun _ => rfl
  queue := List.suffix_rfl
  launch := Proofs.launchKept_memWrite s a v
  wf := s.mem.wf_write a v

theorem within_link : Within ⟨[.r7], false, [], false⟩ s s.link :=
  ⟨Proofs.regsKept_link s, .inl rfl, fun _ _ => rfl, List.prefix_rfl, fun _ => rfl, List.suffix_rfl,
    Proofs.launchKept_link s, id⟩

theorem within_jumpTo (a : Word) : Within ⟨[], false, [], false⟩ s (s.jumpTo a) :=
  ⟨fun _ _ => rfl, .inl rfl, fun _ _ => rfl, List.prefix_rfl, fun _ => rfl, List.suffix_rfl,
    Proofs.launchKept_jumpTo s a, id⟩

theorem within_putString (bs : List Byte) : Within ⟨[], false, [], true⟩ s (s.putString bs) :=
  ⟨fun _ _ => rfl, .inl rfl, fun _ _ => rfl, List.prefix_append s.outLog bs, nofun, List.suffix_rfl,
    ⟨rfl, rfl, rfl⟩, id⟩

theorem within_halt (cause : HaltCause) : Within ⟨[], false, [], false⟩ s (s.halt cause) :=
  ⟨fun _ _ => rfl, .inl rfl, fun _ _ => rfl, List.prefix_rfl, fun _ => rfl, List.suffix_rfl, ⟨rfl, rfl, rfl⟩, id⟩

theorem within_finishInput (k : InputService) :
    Within ⟨[.r0], true, [], decide (k = .input)⟩ s (s.finishInput k) := by
  have frame := serviceFrame_finishInput s k
  cases hq : s.kbq with
  | nil =>
    rw [finishInput_nil s k hq] at frame ⊢
    exact ⟨frame.regs, .inl rfl, frame.cells, List.prefix_rfl, fun _ => rfl, List.suffix_rfl, frame.launch, id⟩
  | cons c rest =>
    rw [finishInput_cons s k c rest hq] at frame ⊢
    refine ⟨frame.regs, .inr ⟨rfl, zext c, rfl⟩, frame.cells, List.prefix_append s.outLog _, fun hk => ?_, ?_,
      frame.launch, id⟩
    · simp [of_decide_eq_false hk]
    · exact ⟨[c], hq.symm⟩

/-- Every instruction completes and writes what the rules let it write. -/
theorem exec_within (i : Instr) : ∃ t, exec i s = .next t ∧ Within (writesOf i s) s t := by
  cases i with
  | br n z p off => exact ⟨_, exec_br s n z p off, within_jumpTo s _⟩
  | addReg dr sr1 sr2 => exact ⟨_, exec_addReg dr sr1 sr2 s, within_writeResult s dr _⟩
  | addImm dr sr1 imm => exact ⟨_, exec_addImm dr sr1 imm s, within_writeResult s dr _⟩
  | andReg dr sr1 sr2 => exact ⟨_, exec_andReg dr sr1 sr2 s, within_writeResult s dr _⟩
  | andImm dr sr1 imm => exact ⟨_, exec_andImm dr sr1 imm s, within_writeResult s dr _⟩
  | not dr sr => exact ⟨_, exec_not dr sr s, within_writeResult s dr _⟩
  | lea dr off => exact ⟨_, exec_lea dr s off, within_writeResult s dr _⟩
  | ld dr off => exact ⟨_, exec_ld dr s off, within_loadFrom s dr _⟩
  | ldi dr off => exact ⟨_, exec_ldi s dr off, (within_memRead s _).append (within_loadFrom _ dr _)⟩
  | ldr dr base off => exact ⟨_, exec_ldr dr base s off, within_loadFrom s dr _⟩
  | st sr off => exact ⟨_, exec_st sr s off, within_memWrite s _ _⟩
  | sti sr off => exact ⟨_, exec_sti s sr off, (within_memRead s _).append (within_memWrite _ _ _)⟩
  | str sr base off => exact ⟨_, exec_str sr base s off, within_memWrite s _ _⟩
  | jsr off => exact ⟨_, exec_jsr s off, (within_link s).append (within_jumpTo _ _)⟩
  | jsrr base => exact ⟨_, exec_jsrr base s, (within_link s).append (within_jumpTo _ _)⟩
  | jmp base => exact ⟨_, exec_jmp base s, within_jumpTo s _⟩
  | rti => exact ⟨_, exec_rti s, (within_putString s _).append (within_halt _ _)⟩
  | res => exact ⟨_, exec_res s, (within_putString s _).append (within_halt _ _)⟩
  | trapGetc => exact ⟨_, exec_trapGetc s, (within_link s).append (within_finishInput _ .getc)⟩
  | trapOut => exact ⟨_, exec_trapOut s, (within_link s).append (within_putString _ _)⟩
  | trapPuts =>
    obtain ⟨t, hexec, hloop⟩ := execTrapPuts_next s
    exact ⟨t, hexec, (within_link s).append ((putsLoop_frame hloop).within true nofun)⟩
  | trapIn =>
    exact ⟨_, exec_trapIn s, (within_link s).append ((within_putString _ _).append (within_finishInput _ _))⟩
  | trapPutsp =>
    obtain ⟨t, hexec, hloop⟩ := execTrapPutsp_next s
    exact ⟨t, hexec, (within_link s).append ((putspLoop_frame hloop).within true nofun)⟩
  | trapHalt =>
    exact ⟨_, exec_trapHalt s, (within_link s).append ((within_putString _ _).append (within_halt _ _))⟩
  | trap v => exact ⟨_, exec_trap s v, within_link s⟩

end Sys2Proof.Machine
end

section
/-! PROOFS. How an instruction leaves the run state, the halt cause and the wait (spec/10_state.md R24, R25,
spec/44_trap.md R169). -/

namespace Sys2Proof.Machine

/-- An instruction executed while no service waits either halts the core, with a cause, or leaves run state and cause as
they were; then it may have begun a wait, and if not it has set CC when its kind does. -/
inductive Ending (i : Instr) (s t : State) : Prop
  | halts (kind : haltsCore i = true) (noFlags : writesCC i = false) (run : t.run = .halted)
      (cause : t.haltCause ≠ .none) (waiting : t.waiting = none) (pc : t.pc = s.pc)
  | goesOn (kind : haltsCore i = false) (run : t.run = s.run) (cause : t.haltCause = s.haltCause)
      (wait : s.run = .running → t.waitOk) (result : writesCC i = true → t.waiting = none → ∃ v, t.cc = ccOf v)

section
variable {i : Instr} {s t : State}

theorem ending_of_onlyResult (kind : haltsCore i = false) (hw : s.waiting = none) {dr : Reg} {v : Word} {P : State → Prop}
    (h : ∃ t, exec i s = .next t ∧ OnlyResult s t dr v ∧ P t) : ∃ t, exec i s = .next t ∧ Ending i s t := by
  obtain ⟨t, hexec, ⟨-, hcc, -, -, ⟨hrun, hcause, hwaiting⟩, -⟩, -⟩ := h
  exact ⟨t, hexec, .goesOn kind hrun hcause (fun _ => .inl (hwaiting.trans hw)) fun _ _ => ⟨v, hcc⟩⟩

theorem Ending.of_controlKept (kind : haltsCore i = false) (noFlags : writesCC i = false) (hw : s.waiting = none)
    (h : ControlKept s t) : Ending i s t := by
  obtain ⟨hrun, hcause, hwaiting⟩ := h
  exact .goesOn kind hrun hcause (fun _ => .inl (hwaiting.trans hw)) fun hflags => absurd hflags (by simp [noFlags])

/-- The end of GETC and IN, `u` being the state after the link write (and the prompt). -/
theorem Ending.of_finishInput {u : State} (k : InputService) (kind : haltsCore i = false) (hrun : u.run = s.run)
    (hcause : u.haltCause = s.haltCause) (hlink : u.reg .r7 = u.pc) : Ending i s (u.finishInput k) :=
  .goesOn kind ((u.finishInput_run k).trans hrun) ((u.finishInput_haltCause k).trans hcause)
    (fun h => waitOk_finishInput u k (hrun.trans h) hlink) fun _ => finishInput_cc_of_done u k

theorem StringFrame.controlKept (h : StringFrame s t) : ControlKept s t := ⟨h.run, h.cause, h.waiting⟩

end

open Proofs in
/-- Every instruction ends in one of the two ways. -/
theorem exec_ending (i : Instr) {s : State} (hw : s.waiting = none) : ∃ t, exec i s = .next t ∧ Ending i s t := by
  cases i with
  | addReg dr sr1 sr2 => exact ending_of_onlyResult rfl hw (addRegisterForm.2 dr sr1 sr2 s)
  | addImm dr sr1 imm => exact ending_of_onlyResult rfl hw (addImmediateForm.2 dr sr1 imm s)
  | andReg dr sr1 sr2 => exact ending_of_onlyResult rfl hw (andRegisterForm.2 dr sr1 sr2 s)
  | andImm dr sr1 imm => exact ending_of_onlyResult rfl hw (andImmediateForm.2 dr sr1 imm s)
  | not dr sr => exact ending_of_onlyResult rfl hw (notInstruction.2 dr sr s)
  | lea dr off => exact ending_of_onlyResult rfl hw (loadEffectiveAddress.2 dr off s)
  | ld dr off => exact ending_of_onlyResult rfl hw (loadPcRelative.2 dr off s)
  | ldi dr off => exact ending_of_onlyResult rfl hw (loadIndirect.2 dr off s _ _ _ _ rfl rfl)
  | ldr dr base off => exact ending_of_onlyResult rfl hw (loadBaseOffset.2 dr base off s)
  | st sr off => exact ⟨_, exec_st sr s off, .of_controlKept rfl rfl hw (controlKept_memWrite s _ _)⟩
  | sti sr off =>
    exact ⟨_, exec_sti s sr off, .of_controlKept rfl rfl hw
      ((controlKept_memRead s _).trans (controlKept_memWrite _ _ _))⟩
  | str sr base off => exact ⟨_, exec_str sr base s off, .of_controlKept rfl rfl hw (controlKept_memWrite s _ _)⟩
  | br n z p off => exact ⟨_, exec_br s n z p off, .of_controlKept rfl rfl hw (controlKept_jumpTo s _)⟩
  | jmp base => exact ⟨_, exec_jmp base s, .of_controlKept rfl rfl hw (controlKept_jumpTo s _)⟩
  | jsr off =>
    exact ⟨_, exec_jsr s off, .of_controlKept rfl rfl hw ((controlKept_link s).trans (controlKept_jumpTo _ _))⟩
  | jsrr base =>
    exact ⟨_, exec_jsrr base s, .of_controlKept rfl rfl hw ((controlKept_link s).trans (controlKept_jumpTo _ _))⟩
  | rti => exact ⟨_, exec_rti s, .halts rfl rfl rfl nofun hw rfl⟩
  | res => exact ⟨_, exec_res s, .halts rfl rfl rfl nofun hw rfl⟩
  | trapGetc => exact ⟨_, exec_trapGetc s, .of_finishInput .getc rfl rfl rfl (reg_r7_link s)⟩
  | trapOut =>
    exact ⟨_, exec_trapOut s, .of_controlKept rfl rfl hw ((controlKept_link s).trans (StringFrame.put _ _).controlKept)⟩
  | trapPuts =>
    obtain ⟨t, hexec, hloop⟩ := execTrapPuts_next s
    exact ⟨t, hexec, .of_controlKept rfl rfl hw ((controlKept_link s).trans (putsLoop_frame hloop).controlKept)⟩
  | trapIn => exact ⟨_, exec_trapIn s, .of_finishInput .input rfl rfl rfl (reg_r7_link s)⟩
  | trapPutsp =>
    obtain ⟨t, hexec, hloop⟩ := execTrapPutsp_next s
    exact ⟨t, hexec, .of_controlKept rfl rfl hw ((controlKept_link s).trans (putspLoop_frame hloop).controlKept)⟩
  | trapHalt => exact ⟨_, exec_trapHalt s, .halts rfl rfl rfl nofun hw rfl⟩
  | trap v => exact ⟨_, exec_trap s v, .of_controlKept rfl rfl hw (controlKept_link s)⟩

end Sys2Proof.Machine
end

section
/-! PROOFS. One step of the machine: it completes, it writes what its instruction may write, and it keeps the invariant
(spec/10_state.md sections 1 to 6, spec/40_fetch_decode.md R110, R115, R116). -/

namespace Sys2Proof.Machine

variable {s t : State}

/-- The cycle of a running core: its instruction's frame and ending, seen from the state after the environment's turn. -/
theorem step_cycle (hrun : s.run = .running) (hwaiting : s.waiting = none) (hstep : step s = .next t) :
    Within (writesOf s.nextInstr s.arrive.fetch.2) s.arrive t ∧ Ending s.nextInstr s.arrive.fetch.2 t := by
  rw [step_running s hrun hwaiting, State.cycle, ← nextInstr_eq] at hstep
  have hw : s.arrive.fetch.2.waiting = none := by simp [hwaiting]
  obtain ⟨u, hu, hwithin⟩ := exec_within s.arrive.fetch.2 s.nextInstr
  obtain ⟨v, hv, hending⟩ := exec_ending s.nextInstr hw
  obtain rfl : u = t := Host.Outcome.next.inj (hu.symm.trans hstep)
  obtain rfl : v = u := Host.Outcome.next.inj (hv.symm.trans hstep)
  exact ⟨(within_fetch s.arrive).append hwithin, hending⟩

theorem step_wait {service : InputService} (hrun : s.run = .running) (hwaiting : s.waiting = some service)
    (hstep : step s = .next t) : t = s.arrive.finishInput service :=
  Host.Outcome.next.inj (hstep.symm.trans (step_waiting s service hrun hwaiting))

/-- What a running core's step writes, the steps of a wait among them. -/
theorem step_within (hrun : s.run = .running) (hstep : step s = .next t) : ∃ w, Within w s.arrive t := by
  cases hwaiting : s.waiting with
  | none => exact ⟨_, (step_cycle hrun hwaiting hstep).1⟩
  | some service => rw [step_wait hrun hwaiting hstep]; exact ⟨_, within_finishInput s.arrive service⟩

/-- A step that is not a running core's changes, if anything, what a boot changes. -/
theorem step_not_running (hrun : s.run ≠ .running) (hstep : step s = .next t) :
    t = { s with pc := t.pc, mem := t.mem, run := t.run } := by
  obtain ⟨-, rfl⟩ | ⟨-, rfl⟩ | ⟨_, h, -⟩ | ⟨h, -⟩ := step_cases hstep
  · obtain hboot | ⟨_, _, _, -, hboot⟩ := s.boot_cases <;> rw [hboot]
  · rfl
  · exact absurd h hrun
  · exact absurd h hrun

theorem ccOf_cases (v : Word) : ccOf v = ccN ∨ ccOf v = ccZ ∨ ccOf v = ccP := by
  unfold ccOf
  split_ifs
  · exact .inr (.inl rfl)
  · exact .inl rfl
  · exact .inr (.inr rfl)

theorem Within.legalCC {w : Writes} (h : Within w s t) (hcc : legalCC s.cc) : legalCC t.cc := by
  obtain hkept | ⟨-, v, hvalue⟩ := h.cc
  · rwa [hkept]
  · rw [hvalue]; exact .inr (ccOf_cases v)

/-- After a running core's step the invariant is what its frame gives, and the three clauses on the control state. -/
theorem Inv.of_within {w : Writes} (h : Inv s) (hwithin : Within w s.arrive t) (hidle : t.run ≠ .idle)
    (hcause : t.causeOk) (hwait : t.waitOk) : Inv t := by
  obtain ⟨hwf, hcc, hdiff, -, -, -⟩ := h
  obtain ⟨hparams, -, -⟩ := hwithin.launch
  exact ⟨hwithin.wf hwf, hwithin.legalCC hcc, by rwa [hparams], hcause, hwait, fun h => absurd h hidle⟩

theorem Ending.control {i : Instr} (h : Ending i s t) (hrun : s.run = .running) (hcause : s.causeOk) :
    t.run ≠ .idle ∧ t.causeOk ∧ t.waitOk := by
  cases h with
  | halts _ _ run cause waiting => exact ⟨by simp [run], by simp [State.causeOk, run, cause], .inl waiting⟩
  | goesOn _ run cause wait =>
    have hnone : s.haltCause = .none := hcause.2 (by simp [hrun])
    exact ⟨by simp [run, hrun], by simp [State.causeOk, run, cause, hrun, hnone], wait hrun⟩

theorem inv_boot (h : Inv s) (hrun : s.run = .idle) : Inv s.boot := by
  obtain hboot | ⟨hi, lo, body, -, hboot⟩ := s.boot_cases
  · rwa [hboot]
  · obtain ⟨hwf, hcc, hdiff, hcause, hwait, -⟩ := h
    have hnone : s.haltCause = .none := hcause.2 (by simp [hrun])
    have hwaiting : s.waiting = none := hwait.resolve_right fun ⟨hr, _⟩ => by simp [hrun] at hr
    rw [hboot]
    exact ⟨storeWords_wf _ _ _ hwf, hcc, hdiff, by simp [State.causeOk, hnone], .inl hwaiting, nofun⟩

theorem inv_wait {service : InputService} (h : Inv s) (hrun : s.run = .running) (hwaiting : s.waiting = some service) :
    Inv (s.arrive.finishInput service) := by
  have ⟨_, _, _, hcause, hwait, _⟩ := h
  have hnone : s.haltCause = .none := hcause.2 (by simp [hrun])
  obtain ⟨-, -, hlink⟩ := hwait.resolve_left (by simp [hwaiting])
  exact h.of_within (within_finishInput s.arrive service) (by simp [hrun]) (by simp [State.causeOk, hrun, hnone])
    (waitOk_finishInput s.arrive service hrun (by simpa using hlink))

end Sys2Proof.Machine

namespace Sys2Proof.Proofs

open Sys2Proof.Machine

/-- Settles O49, by the kinds of step: a boot, a halted core's turn, a turn of a wait, and a cycle, whose frame and
ending give every clause. -/
theorem stepKeepsInvariant : Obligations.StepKeepsInvariant := by
  intro s t hinv hstep
  obtain ⟨hrun, rfl⟩ | ⟨-, rfl⟩ | ⟨service, hrun, hwaiting, rfl⟩ | ⟨hrun, hwaiting, -⟩ := step_cases hstep
  · exact inv_boot hinv hrun
  · exact hinv
  · exact inv_wait hinv hrun hwaiting
  · obtain ⟨hwithin, hending⟩ := step_cycle hrun hwaiting hstep
    have ⟨_, _, _, hcause, _, _⟩ := hinv
    obtain ⟨hidle, tcause, twait⟩ := hending.control (by simpa using hrun) (by simpa [State.causeOk] using hcause)
    exact hinv.of_within hwithin hidle tcause twait

/-- Settles O50: a boot, a halted turn and a turn of a wait answer a state, and every instruction does. -/
theorem everyStepCompletes : Obligations.EveryStepCompletes := by
  intro s
  cases hrun : s.run with
  | idle => exact ⟨_, step_idle s hrun⟩
  | halted => exact ⟨_, step_halted s hrun⟩
  | running =>
    cases hwaiting : s.waiting with
    | some service => exact ⟨_, step_waiting s service hrun hwaiting⟩
    | none =>
      obtain ⟨t, hexec, -⟩ := exec_within s.arrive.fetch.2 (decode s.arrive.fetch.1)
      exact ⟨t, (step_running s hrun hwaiting).trans hexec⟩

/-- Settles O51: a cycle ends as its instruction does, a turn of a wait goes on, and a boot starts the core or nothing. -/
theorem threeWaysToHalt : Obligations.ThreeWaysToHalt := by
  intro s t hstep
  obtain ⟨hrun, rfl⟩ | ⟨hrun, rfl⟩ | ⟨service, hrun, hwaiting, rfl⟩ | ⟨hrun, hwaiting, -⟩ := step_cases hstep
  · obtain hboot | ⟨_, _, _, -, hboot⟩ := s.boot_cases <;> simp [hboot, hrun]
  · simp [hrun]
  · simp [hrun, hwaiting]
  · obtain ⟨-, hending⟩ := step_cycle hrun hwaiting hstep
    cases hending with
    | halts kind _ run => simp [hrun, hwaiting, kind, run]
    | goesOn kind run => simp [hrun, kind, run]

/-- Settles O52: the registers of the cycle's frame, and R0 for the end of a wait. -/
theorem onlyTheListedRegistersAreWritten : Obligations.OnlyTheListedRegistersAreWritten := by
  intro s t hrun hstep
  refine ⟨fun hwaiting => (step_cycle hrun hwaiting hstep).1.regs, fun hwaiting => ?_⟩
  obtain ⟨service, hservice⟩ := Option.ne_none_iff_exists'.1 hwaiting
  rw [step_wait hrun hservice hstep]
  exact (within_finishInput s.arrive service).regs

/-- Settles O53: the flags of the cycle's frame, and the ending of an instruction that writes them, which is N, Z or P. -/
theorem onlyTheListedInstructionsWriteCC : Obligations.OnlyTheListedInstructionsWriteCC := by
  intro s t hrun hwaiting hstep
  obtain ⟨hwithin, hending⟩ := step_cycle hrun hwaiting hstep
  refine ⟨fun hquiet => ?kept, fun hwrites hdone => ?written⟩
  case kept => exact hwithin.cc.resolve_right fun ⟨hmay, _⟩ => Bool.false_ne_true (hquiet.symm.trans hmay)
  case written =>
    cases hending with
    | halts _ noFlags => exact absurd (noFlags.symm.trans hwrites) Bool.false_ne_true
    | goesOn _ _ _ _ result =>
      obtain ⟨v, hv⟩ := result hwrites hdone
      rw [hv]
      exact ccOf_cases v

/-- Settles O54: log and queue of a running core's frame, and a boot, which touches neither. -/
theorem consoleIsALogAndAQueue : Obligations.ConsoleIsALogAndAQueue := by
  intro s t hstep
  by_cases hrun : s.run = .running
  · obtain ⟨w, hwithin⟩ := step_within hrun hstep
    exact ⟨hwithin.log.imp fun _ => Eq.symm, fun _ hwaiting hquiet => (step_cycle hrun hwaiting hstep).1.quiet hquiet,
      fun _ => hwithin.queue.imp fun _ => Eq.symm, fun h => absurd hrun h⟩
  · rw [step_not_running hrun hstep]
    exact ⟨⟨[], (List.append_nil _).symm⟩, fun h => absurd h hrun, fun h => absurd h hrun, fun _ => rfl⟩

/-- Settles O55: the cells of the cycle's frame are the device cells and the one stored to. -/
theorem onlyStoresAndPollsChangeMemory : Obligations.OnlyStoresAndPollsChangeMemory := by
  intro s t a hrun hwaiting hstep hkbsr hkbdr hstore
  apply (step_cycle hrun hwaiting hstep).1.cells
  simpa [writesOf, Writes.append, hkbsr, hkbdr] using hstore

/-- Settles O56: a running core's step keeps what the environment's turn left, and any other changes no launch argument. -/
theorem launchArgumentsAreFixed : Obligations.LaunchArgumentsAreFixed := by
  intro s t hstep
  by_cases hrun : s.run = .running
  · obtain ⟨w, hwithin⟩ := step_within hrun hstep
    rw [if_pos hrun]
    exact hwithin.launch
  · rw [step_not_running hrun hstep, if_neg hrun]
    exact ⟨rfl, rfl, rfl⟩

end Sys2Proof.Proofs
end

section
/-! PROOFS. The string services: they end where the spec's loops do, and what they write for a string that ends before
KBSR_ADDR or at it (spec/44_trap.md R163, R165; D5, D7). -/

namespace Sys2Proof.Machine

section
variable {s t : State} {p : Word}

theorem PutsRun.of_nonzero (h : PutsRun s p t) (hword : (s.memRead p).1 ≠ 0) :
    PutsRun ((s.memRead p).2.put (lowByte (s.memRead p).1)) (p + 1) t := by
  cases h with
  | stop _ _ zero => exact absurd zero hword
  | char _ _ _ _ rest => exact rest

theorem PutsRun.eq_of_zero (h : PutsRun s p t) (hword : (s.memRead p).1 = 0) : t = (s.memRead p).2 := by
  cases h with
  | stop => rfl
  | char _ _ _ more _ => exact absurd hword more

theorem PutspRun.of_full (h : PutspRun s p t) (hlow : lowByte (s.memRead p).1 ≠ 0)
    (hhigh : highByte (s.memRead p).1 ≠ 0) :
    PutspRun (((s.memRead p).2.put (lowByte (s.memRead p).1)).put (highByte (s.memRead p).1)) (p + 1) t := by
  cases h with
  | stopLow _ _ zero => exact absurd zero hlow
  | stopHigh _ _ _ zero => exact absurd zero hhigh
  | chars _ _ _ _ _ rest => exact rest

/-- The last word of a packed string gives its low byte or nothing. -/
theorem PutspRun.eq_of_end (h : PutspRun s p t) (hend : lowByte (s.memRead p).1 = 0 ∨ highByte (s.memRead p).1 = 0) :
    t = (s.memRead p).2.putString (if lowByte (s.memRead p).1 = 0 then [] else [lowByte (s.memRead p).1]) := by
  cases h with
  | stopLow _ _ zero => rw [if_pos zero, State.putString, List.append_nil]
  | stopHigh _ _ low _ => rw [if_neg low]; rfl
  | chars _ _ _ low high _ => exact absurd hend (not_or.2 ⟨low, high⟩)

theorem State.putString_append (s : State) (first second : List Byte) :
    s.putString (first ++ second) = (s.putString first).putString second := by
  simp only [State.putString, List.append_assoc]

/-- The pointer after one more word. -/
theorem add_ofNat_succ (p : Word) (n : Nat) : p + BitVec.ofNat 16 (n + 1) = p + BitVec.ofNat 16 n + 1 := by
  rw [BitVec.ofNat_add, ← BitVec.add_assoc]
  rfl

/-- The bytes PUTS writes for the first `n` words from `p` on. -/
def stringBytes (s : State) (p : Word) (n : Nat) : List Byte := (List.range n).map fun i => lowByte (wordAt s p i)

/-- The bytes PUTSP writes for the first `n` words from `p` on. -/
def packedString (s : State) (p : Word) (n : Nat) : List Byte := (List.range n).flatMap fun i => packedBytes (wordAt s p i)

theorem stringBytes_succ (s : State) (p : Word) (n : Nat) :
    stringBytes s p (n + 1) = stringBytes s p n ++ [lowByte (wordAt s p n)] := by
  simp only [stringBytes, List.range_succ, List.map_append, List.map_cons, List.map_nil]

theorem packedString_succ (s : State) (p : Word) (n : Nat) :
    packedString s p (n + 1) = packedString s p n ++ packedBytes (wordAt s p n) := by
  simp only [packedString, List.range_succ, List.flatMap_append, List.flatMap_singleton]

/-- A read of the string does not depend on what has been written of it. -/
theorem memRead_putString_plain (s : State) (bs : List Byte) (p : Word) (i : Nat)
    (h : p + BitVec.ofNat 16 i ≠ s.params.kbsrAddr) :
    (s.putString bs).memRead (p + BitVec.ofNat 16 i) = (wordAt s p i, s.putString bs) :=
  State.memRead_plain _ _ h

/-- After `n` words that do not end the string, PUTS goes on at the next one. -/
theorem PutsRun.after_words (h : PutsRun s p t) (n : Nat)
    (hwords : ∀ i, i < n → wordAt s p i ≠ 0 ∧ p + BitVec.ofNat 16 i ≠ s.params.kbsrAddr) :
    PutsRun (s.putString (stringBytes s p n)) (p + BitVec.ofNat 16 n) t := by
  induction n with
  | zero => simpa [stringBytes, State.putString] using h
  | succ n ih =>
    obtain ⟨hword, hplain⟩ := hwords n n.lt_succ_self
    have hread := memRead_putString_plain s (stringBytes s p n) p n hplain
    have hnext := (ih fun i hi => hwords i (hi.trans n.lt_succ_self)).of_nonzero (by rwa [hread])
    rw [hread] at hnext
    rw [stringBytes_succ, State.putString_append, add_ofNat_succ]
    exact hnext

/-- After `n` full words PUTSP goes on at the next one. -/
theorem PutspRun.after_words (h : PutspRun s p t) (n : Nat)
    (hwords : ∀ i, i < n → lowByte (wordAt s p i) ≠ 0 ∧ highByte (wordAt s p i) ≠ 0)
    (hplain : ∀ i, i < n → p + BitVec.ofNat 16 i ≠ s.params.kbsrAddr) :
    PutspRun (s.putString (packedString s p n)) (p + BitVec.ofNat 16 n) t := by
  induction n with
  | zero => simpa [packedString, State.putString] using h
  | succ n ih =>
    obtain ⟨hlow, hhigh⟩ := hwords n n.lt_succ_self
    have hread := memRead_putString_plain s (packedString s p n) p n (hplain n n.lt_succ_self)
    have hnext := (ih (fun i hi => hwords i (hi.trans n.lt_succ_self))
      fun i hi => hplain i (hi.trans n.lt_succ_self)).of_full (by rwa [hread]) (by rwa [hread])
    rw [hread] at hnext
    have hbytes : packedBytes (wordAt s p n) = [lowByte (wordAt s p n)] ++ [highByte (wordAt s p n)] := rfl
    rw [packedString_succ, State.putString_append, add_ofNat_succ, hbytes, State.putString_append]
    exact hnext

theorem StringFrame.coreKept (h : StringFrame s t) : CoreKept s t [] :=
  ⟨h.serviceFrame.regs, h.cc, h.controlKept, h.serviceFrame.launch⟩

/-- What a string service leaves alone, with the link write that comes before its loop. -/
theorem StringFrame.of_link (h : StringFrame s.link t) : t.reg .r7 = s.pc ∧ t.pc = s.pc ∧ CoreKept s t [.r7] ∧
    CellsKept s t [s.params.kbsrAddr, s.params.kbdrAddr] :=
  ⟨(h.serviceFrame.regs .r7 (by decide)).trans (reg_r7_link s), h.pc,
    (Proofs.coreKept_link s).append h.coreKept, h.cells⟩

end

end Sys2Proof.Machine

namespace Sys2Proof.Proofs

open Sys2Proof.Machine

/-- Settles O35: the reads allowed are enough, and the loop with its read count is R163's. -/
theorem putsServiceCompletes : Obligations.PutsServiceCompletes := by
  intro s
  obtain ⟨t, hexec, hloop⟩ := execTrapPuts_next s
  exact ⟨t, hexec, reg_r0_link s ▸ putsLoop_run hloop, (putsLoop_frame hloop).of_link⟩

/-- Settles O38: the reads allowed are enough, and the loop with its read count is R165's. -/
theorem putspServiceCompletes : Obligations.PutspServiceCompletes := by
  intro s
  obtain ⟨t, hexec, hloop⟩ := execTrapPutsp_next s
  exact ⟨t, hexec, reg_r0_link s ▸ putspLoop_run hloop, (putspLoop_frame hloop).of_link⟩

/-- Settles O36: the run passes the words before the zero word and stops there, with plain reads all the way. -/
theorem putsWritesTheString : Obligations.PutsWritesTheString := by
  intro s n hwords hzero hplain
  obtain ⟨t, hexec, hrun, hlink, hpc, hcore, -⟩ := putsServiceCompletes s
  have hread := memRead_putString_plain s.link (stringBytes s (s.reg .r0) n) (s.reg .r0) n (hplain n le_rfl)
  have hend := (hrun.after_words n fun i hi => ⟨hwords i hi, hplain i hi.le⟩).eq_of_zero (hread ▸ hzero)
  have ht : t = s.link.putString (stringBytes s (s.reg .r0) n) := hend.trans (congrArg Prod.snd hread)
  rw [ht] at hexec hlink hpc hcore
  exact ⟨_, hexec, rfl, rfl, hlink, hpc, hcore, fun _ _ => rfl⟩

/-- Settles O37: the run passes the words before KBSR_ADDR, and the poll there finds nothing, which ends the string. -/
theorem putsStopsAtTheKeyboard : Obligations.PutsStopsAtTheKeyboard := by
  intro s n hwords hkbsr hq
  obtain ⟨t, hexec, hrun, hlink, hpc, hcore, -⟩ := putsServiceCompletes s
  have hrest := hrun.after_words n hwords
  rw [hkbsr] at hrest
  have hword := State.memRead_kbsr_miss (s.link.putString (stringBytes s.link (s.reg .r0) n)) hq
  obtain rfl := hrest.eq_of_zero hword
  have hcells := cellsKept_memRead_kbsr_miss (s.link.putString (stringBytes s.link (s.reg .r0) n)) hq
  have hkbq := State.memRead_kbq (s.link.putString (stringBytes s.link (s.reg .r0) n)) s.params.kbsrAddr
  refine ⟨_, hexec, State.memRead_outLog _ _, ?_, hword, hcells, hlink, hpc, hcore⟩
  simpa [hq] using hkbq

/-- Settles O39: the run passes the full words and stops at the first that is not, with plain reads all the way. -/
theorem putspWritesThePackedString : Obligations.PutspWritesThePackedString := by
  intro s n hwords hlast hplain
  obtain ⟨t, hexec, hrun, hlink, hpc, hcore, -⟩ := putspServiceCompletes s
  have hread := memRead_putString_plain s.link (packedString s (s.reg .r0) n) (s.reg .r0) n (hplain n le_rfl)
  have hend := (hrun.after_words n hwords fun i hi => hplain i hi.le).eq_of_end (hread ▸ hlast)
  have ht := hend.trans (congrArg (fun r => r.2.putString (if lowByte r.1 = 0 then [] else [lowByte r.1])) hread)
  rw [ht] at hexec hlink hpc hcore
  exact ⟨_, hexec, rfl, rfl, hlink, hpc, hcore, fun _ _ => rfl⟩

end Sys2Proof.Proofs
end

section
/-! PROOFS. The environment's turn before a cycle, and that what is typed is not seen by a cycle that reads no KBSR_ADDR
(spec/10_state.md R32, spec/60_exceptions.md R193). -/

namespace Sys2Proof.Machine

/-- A plain read gives the same word however much is typed, and leaves it typed. -/
theorem memRead_typed (s : State) (bs : List Byte) {a : Word} (ha : a ≠ s.params.kbsrAddr) :
    (s.typed bs).memRead a = ((s.memRead a).1, (s.memRead a).2.typed bs) := by
  rw [s.memRead_plain a ha, State.memRead_plain (s.typed bs) a ha]
  rfl

theorem loadFrom_typed (s : State) (bs : List Byte) (dr : Reg) {ea : Word} (ha : ea ≠ s.params.kbsrAddr) :
    (s.typed bs).loadFrom dr ea = (s.loadFrom dr ea).typed bs := by
  rw [State.loadFrom_eq, memRead_typed s bs ha]
  rfl

/-- An instruction whose reads are all plain does the same whatever is typed, and leaves it typed. -/
theorem exec_typed {i : Instr} {s t : State} (bs : List Byte) (hkind : isInputOrString i = false)
    (hreads : ∀ a ∈ dataReads i s, a ≠ s.params.kbsrAddr) (h : exec i s = .next t) :
    exec i (s.typed bs) = .next (t.typed bs) := by
  cases i with
  | br n z p off => rw [exec_br] at h ⊢; cases h; rfl
  | ld dr off => cases h; exact congrArg _ (loadFrom_typed s bs dr (hreads _ (.head _)))
  | ldr dr base off => cases h; exact congrArg _ (loadFrom_typed s bs dr (hreads _ (.head _)))
  | ldi dr off =>
    obtain rfl := Host.Outcome.next.inj ((exec_ldi s dr off).symm.trans h)
    have hpointer := memRead_typed s bs (a := s.pc + sext off) (hreads _ (.head _))
    have hoperand : (s.memRead (s.pc + sext off)).1 ≠ (s.memRead (s.pc + sext off)).2.params.kbsrAddr := by
      rw [State.memRead_params]
      exact hreads _ (.tail _ (.head _))
    have hexec := exec_ldi (s.typed bs) dr off
    rw [State.typed_pc, hpointer, loadFrom_typed _ bs dr hoperand] at hexec
    exact hexec
  | sti sr off =>
    obtain rfl := Host.Outcome.next.inj ((exec_sti s sr off).symm.trans h)
    have hpointer := memRead_typed s bs (a := s.pc + sext off) (hreads _ (.head _))
    have hexec := exec_sti (s.typed bs) sr off
    rw [State.typed_pc, hpointer, State.typed_reg] at hexec
    exact hexec
  | trapGetc | trapIn | trapPuts | trapPutsp => exact absurd hkind (by decide)
  | _ => cases h; rfl

/-- A cycle whose fetch is a plain read: the word at PC, and PC one further. -/
theorem fetch_plain (s : State) (hpc : s.pc ≠ s.params.kbsrAddr) :
    s.fetch = (s.mem.read s.pc, { s with pc := s.pc + 1 }) :=
  State.fetch_of_memRead (s.memRead_plain s.pc hpc)

/-- A ready core's step, its fetch being a plain read. -/
theorem step_plain {s : State} (hready : s.ready) (hpc : s.pc ≠ s.params.kbsrAddr) :
    step s = exec (decode (s.mem.read s.pc)) { s with pc := s.pc + 1 } := by
  rw [step_ready s hready, fetch_plain s hpc]

theorem nextInstr_plain {s : State} (hready : s.ready) (hpc : s.pc ≠ s.params.kbsrAddr) :
    s.nextInstr = decode (s.mem.read s.pc) := by
  obtain ⟨-, -, hover⟩ := hready
  rw [nextInstr_eq, s.arrive_of_nothing hover, fetch_plain s hpc]

end Sys2Proof.Machine

namespace Sys2Proof.Proofs

open Sys2Proof.Machine

/-- Settles O43: the state the environment's turn leaves is the one the cycle starts from. -/
theorem typingComesBeforeTheCycle : Obligations.TypingComesBeforeTheCycle := by
  refine ⟨fun s u ir hrun hwaiting hread => ?_, fun _ _ => ⟨rfl, rfl⟩, rfl, rfl, fun _ _ => ⟨rfl, rfl⟩⟩
  have hfetch : s.arrive.fetch = (ir, { u with pc := s.pc + 1 }) := State.fetch_of_memRead hread
  rw [step_running s hrun hwaiting, State.cycle, hfetch]

/-- Settles O57: fetch and instruction read plain cells only, so both commute with the typing. -/
theorem typingIsUnseenUntilPolled : Obligations.TypingIsUnseenUntilPolled := by
  intro s t bs hready hpc hkind hreads hstep
  rw [nextInstr_plain hready hpc] at hkind hreads
  rw [step_plain hready hpc] at hstep
  have htyped : (s.typed bs).ready := hready
  rw [step_plain htyped hpc]
  exact exec_typed bs hkind hreads hstep

/-- Settles O47: the store's address is the next PC, whose fetch is a plain read of the cell just written. -/
theorem nextFetchSeesTheStore : Obligations.NextFetchSeesTheStore := by
  intro s sr hready hpc hnext hdecode
  have hstep := step_plain hready hpc
  have haddr : s.pc + 1 + sext (0 : BitVec 9) = s.pc + 1 := BitVec.add_zero _
  rw [hdecode, exec_st, haddr] at hstep
  refine ⟨_, hstep, hready, ?_⟩
  have hthen := step_plain (s := State.memWrite { s with pc := s.pc + 1 } (s.pc + 1) (s.reg sr)) hready hnext
  rw [State.memWrite_pc, State.read_memWrite_same] at hthen
  have htwo : s.pc + 1 + 1 = s.pc + 2 := BitVec.add_assoc _ _ _
  rwa [htwo] at hthen

end Sys2Proof.Proofs
end

section
/-! PROOFS. Reset, the boot that fails, and HALTED (spec/10_state.md R23, R35, spec/40_fetch_decode.md R115,
spec/70_reset_and_hazards.md R224, R226). -/

namespace Sys2Proof.Machine

/-- A boot from an image of fewer than two bytes changes nothing. -/
theorem State.boot_of_short (s : State) {bytes : List Byte} (himage : s.image = some bytes) (hshort : bytes.length < 2) :
    s.boot = s := by
  obtain hboot | ⟨hi, lo, body, hlong, -⟩ := s.boot_cases
  · exact hboot
  · obtain rfl : bytes = hi :: lo :: body := Option.some.inj (himage.symm.trans hlong)
    simp at hshort

theorem State.boot_of_none (s : State) (himage : s.image = none) : s.boot = s := by
  simp only [State.boot, himage]

/-- The boot from an image with a last odd byte stores what the boot without that byte stores. -/
theorem State.boot_imageBytes_odd (s : State) {origin : Word} {words : List Word} {odd : Byte}
    (himage : s.image = some (imageBytes origin ++ words.flatMap imageBytes ++ [odd])) :
    s.boot = { s with pc := origin, mem := storeWords origin.toNat words s.mem, run := .running } := by
  have hbytes : s.image = some (highByte origin :: lowByte origin :: (words.flatMap imageBytes ++ [odd])) := himage
  simp only [State.boot, hbytes, wordOfBytes_imageBytes, imageWords_odd]

theorem step_of_imageBytes {s : State} {origin : Word} {words : List Word} (hidle : s.run = .idle)
    (himage : s.image = some (imageBytes origin ++ words.flatMap imageBytes)) : step s =
      .next { s with pc := origin, mem := storeWords origin.toNat words s.mem, run := .running } :=
  (step_idle s hidle).trans (congrArg _ (s.boot_imageBytes himage))

/-- A machine whose step answers the same state answers it for any number of steps. -/
theorem run_of_step_eq_self {M : Host.Core} {s : M.State} (h : M.step s = .next s) (k : Nat) : M.run k s = .next s := by
  induction k with
  | zero => rfl
  | succ k ih => rw [Host.Core.run, h]; exact ih

theorem inv_launch (l : Launch) (hwf : l.mem0.wf) (hdiff : l.params.kbsrAddr ≠ l.params.kbdrAddr) :
    Inv (State.launch l) :=
  ⟨hwf, .inl rfl, hdiff, iff_of_true rfl nofun, .inl rfl, fun _ => rfl⟩

end Sys2Proof.Machine

namespace Sys2Proof.Proofs

open Sys2Proof.Machine

/-- Settles O4: by the four legal codes, and BR's flags by their bits. -/
theorem conditionCodesAreOneHot : Obligations.ConditionCodesAreOneHot := by
  refine ⟨rfl, rfl, rfl, fun n z p cc hcc => ?taken, by decide, fun cc hcc hset => ?all⟩
  case taken => obtain rfl | rfl | rfl | rfl := hcc <;> revert n z p <;> decide
  case all => exact (branchTaken_iff true true true cc).2 (by simpa using hcc.resolve_left hset)

/-- Settles O5: the launch's registers, and its other fields by definition. -/
theorem resetValues : Obligations.ResetValues :=
  ⟨fun l => ⟨State.reg_launch l, rfl, rfl, nofun, rfl, rfl, fun _ => rfl, rfl, rfl, rfl⟩, Launch.default, rfl⟩

/-- Settles O48: a launch has the reset values, and the default one has the empty memory and two addresses. -/
theorem resetMeetsInvariant : Obligations.ResetMeetsInvariant :=
  ⟨inv_launch, inv_launch Launch.default Memory.wf_nil (by decide)⟩

/-- Settles O44: a halting instruction leaves the fetch's PC, and every step of a halted core answers the same state. -/
theorem haltedCoreDoesNothing : Obligations.HaltedCoreDoesNothing := by
  refine ⟨fun s t hrun hstep hhalted => ?halting, fun s k hhalted => ?halted⟩
  case halting =>
    cases hwaiting : s.waiting with
    | some service => simp [step_wait hrun hwaiting hstep, hrun] at hhalted
    | none =>
      cases (step_cycle hrun hwaiting hstep).2 with
      | halts _ _ _ _ _ pc => exact pc.trans s.arrive.fetch_pc
      | goesOn _ run => simp [run, hrun] at hhalted
  case halted =>
    have hstep : Sys2Proof.core.step s = .next s := step_halted s hhalted
    exact run_of_step_eq_self hstep k

/-- Settles O46: a boot that fails leaves the state, and one whose image has an odd last byte stores the whole words. -/
theorem malformedImages : Obligations.MalformedImages := by
  refine ⟨fun s hidle himage => ?none, fun s bytes hidle himage hshort => ?short,
    fun s origin words odd hidle himage => ?odd⟩
  case none => rw [step_idle s hidle, s.boot_of_none himage]
  case short => rw [step_idle s hidle, s.boot_of_short himage hshort]
  case odd =>
    exact ⟨_, _, (step_idle s hidle).trans (congrArg _ (s.boot_imageBytes_odd himage)),
      step_of_imageBytes hidle rfl, rfl⟩

end Sys2Proof.Proofs
end
